-- ==== Sys2Proof/Word.lean ====
section
/-! DEFINITION. The word types of the core: bytes, 16-bit words, 12-bit addresses and register indices
(spec 00_scope.md R7, R11; 10_state.md R21, R24, R30). -/

namespace Sys2Proof

/-- A memory byte, a general register, a timer (00_scope.md R7). -/
abbrev Byte := BitVec 8

/-- An opcode, `pc`, `I` or a stack slot (00_scope.md R7). -/
abbrev Word := BitVec 16

/-- The literal NNN of an opcode (30_encoding.md R93). -/
abbrev Addr12 := BitVec 12

/-- The literal N of an opcode (30_encoding.md R93). -/
abbrev Nibble := BitVec 4

/-- A general register index, V0 to VF (10_state.md R21). -/
abbrev Reg := Fin 16

end Sys2Proof
end

