-- ==== Sys2Proof/Config.lean ====
section
/-! DEFINITION. What this hardware fixes (sizes, spec 00_scope.md R7), the names of the two choices the spec leaves open
(R8: `CallPushConvention`, `DrawEdgePolicy`), and the one free value of the model: the random bytes of CXNN (D22). -/

namespace Sys2Proof

/-- 4096 bytes of memory, addresses 0x000-0xFFF (00_scope.md R7; 20_memory.md R60). -/
abbrev Config.memSize : Nat := 4096

/-- The address a ROM is loaded at and the reset pc, 0x200 (00_scope.md R7). -/
abbrev Config.programStart : Nat := 512

/-- The ROM capacity, 4096 - 512 bytes (00_scope.md R7; 70_reset_and_hazards.md R286). -/
abbrev Config.romCapacity : Nat := 3584

/-- What a CALL pushes and a RET does with it (00_scope.md R8, D6). An open choice of the implementation: the state names
which one a machine has (assumption log 1), and every statement holds for both. -/
inductive CallPushConvention where
  /-- CALL pushes pc + 2 and RET goes to the popped value. -/
  | returnAddress
  /-- CALL pushes pc and RET goes to the popped value + 2. -/
  | callAddress
  deriving DecidableEq, Repr

/-- What DXYN does with a set sprite bit outside the framebuffer (00_scope.md R8, D9; 44_display.md R212). An open choice of
the implementation: the state names which one a machine has (assumption log 1), and every statement holds for both. -/
inductive DrawEdgePolicy where
  /-- The draw raises `DrawOutOfRange` and changes nothing. -/
  | fault
  /-- The set bits outside are dropped and the rest of the sprite draws. -/
  | clip
  deriving DecidableEq, Repr

/-- FREE VALUE (00_scope.md R8 `Rand`; 10_state.md R43; D22). The byte of the environment's n-th free draw. It has no body, so
nothing can be proved of a value of it. DESIGN CHOICE, safe: assumption log 6. -/
opaque Config.rand : Nat → Byte

end Sys2Proof
end

