-- ==== Sys2Proof/Syntax.lean ====
section
/-! DEFINITION. The instruction set: one constructor for each of the 35 rows of the opcode map (spec 30_encoding.md R96;
spec/opcode_table.json), in the table's order, carrying the operand fields of the row. -/

namespace Sys2Proof

/-- An instruction (30_encoding.md R96). `x` and `y` are the register fields X and Y, `n`, `nn` and `nnn` the literals N, NN
and NNN (00_scope.md R15). -/
inductive Instr where
  /-- 0NNN, `SYS NNN` (R98, R140). -/
  | sys (nnn : Addr12)
  /-- 00E0, `CLS` (R210). -/
  | cls
  /-- 00EE, `RET` (R141). -/
  | ret
  /-- 1NNN, `JP NNN` (R142). -/
  | jp (nnn : Addr12)
  /-- 2NNN, `CALL NNN` (R143). -/
  | call (nnn : Addr12)
  /-- 3XNN, `SE VX, NN` (R145). -/
  | seVxNN (x : Reg) (nn : Byte)
  /-- 4XNN, `SNE VX, NN` (R146). -/
  | sneVxNN (x : Reg) (nn : Byte)
  /-- 5XY0, `SE VX, VY` (R147). -/
  | seVxVy (x y : Reg)
  /-- 6XNN, `LD VX, NN` (R161). -/
  | ldVxNN (x : Reg) (nn : Byte)
  /-- 7XNN, `ADD VX, NN` (R162). -/
  | addVxNN (x : Reg) (nn : Byte)
  /-- 8XY0, `LD VX, VY` (R163). -/
  | ldVxVy (x y : Reg)
  /-- 8XY1, `OR VX, VY` (R164). -/
  | orVxVy (x y : Reg)
  /-- 8XY2, `AND VX, VY` (R165). -/
  | andVxVy (x y : Reg)
  /-- 8XY3, `XOR VX, VY` (R166). -/
  | xorVxVy (x y : Reg)
  /-- 8XY4, `ADD VX, VY` (R168). -/
  | addVxVy (x y : Reg)
  /-- 8XY5, `SUB VX, VY` (R169). -/
  | subVxVy (x y : Reg)
  /-- 8XY6, `SHR VX` (R170). Y is decoded and ignored (R94). -/
  | shrVx (x y : Reg)
  /-- 8XY7, `SUBN VX, VY` (R171). -/
  | subnVxVy (x y : Reg)
  /-- 8XYE, `SHL VX` (R172). Y is decoded and ignored (R94). -/
  | shlVx (x y : Reg)
  /-- 9XY0, `SNE VX, VY` (R148). -/
  | sneVxVy (x y : Reg)
  /-- ANNN, `LD I, NNN` (R190). -/
  | ldI (nnn : Addr12)
  /-- BNNN, `JP V0, NNN` (R144). -/
  | jpV0 (nnn : Addr12)
  /-- CXNN, `RND VX, NN` (R173). -/
  | rnd (x : Reg) (nn : Byte)
  /-- DXYN, `DRW VX, VY, N` (R211). -/
  | drw (x y : Reg) (n : Nibble)
  /-- EX9E, `SKP VX` (R230). -/
  | skp (x : Reg)
  /-- EXA1, `SKNP VX` (R231). -/
  | sknp (x : Reg)
  /-- FX07, `LD VX, DT` (R232). -/
  | ldVxDT (x : Reg)
  /-- FX0A, `LD VX, K` (R233). -/
  | ldVxK (x : Reg)
  /-- FX15, `LD DT, VX` (R234). -/
  | ldDTVx (x : Reg)
  /-- FX18, `LD ST, VX` (R235). -/
  | ldSTVx (x : Reg)
  /-- FX1E, `ADD I, VX` (R191). -/
  | addIVx (x : Reg)
  /-- FX29, `LD F, VX` (R192). -/
  | ldFVx (x : Reg)
  /-- FX33, `LD B, VX` (R193). -/
  | ldBVx (x : Reg)
  /-- FX55, `LD [I], VX` (R194). -/
  | ldMemVx (x : Reg)
  /-- FX65, `LD VX, [I]` (R195). -/
  | ldVxMem (x : Reg)
  deriving DecidableEq, Repr

end Sys2Proof
end

