-- ==== Sys2Proof/WellFormed.lean ====
section
/-! DEFINITION. Which terms of `Instr` stand for an opcode. The operand fields carry their widths in their types
(spec 30_encoding.md R90), so one check is left: the two words 0x00E0 and 0x00EE are CLS and RET and never SYS (R98). -/

namespace Sys2Proof

/-- An instruction is well formed: a SYS is not the word of CLS or of RET (30_encoding.md R98). -/
def Instr.wf : Instr → Bool
  | .sys nnn => nnn != 0x0E0#12 && nnn != 0x0EE#12
  | .cls | .ret => true
  | .jp _ | .call _ | .ldI _ | .jpV0 _ => true
  | .seVxNN _ _ | .sneVxNN _ _ | .ldVxNN _ _ | .addVxNN _ _ | .rnd _ _ => true
  | .seVxVy _ _ | .sneVxVy _ _ => true
  | .ldVxVy _ _ | .orVxVy _ _ | .andVxVy _ _ | .xorVxVy _ _ => true
  | .addVxVy _ _ | .subVxVy _ _ | .shrVx _ _ | .subnVxVy _ _ | .shlVx _ _ => true
  | .drw _ _ _ => true
  | .skp _ | .sknp _ | .ldVxDT _ | .ldVxK _ | .ldDTVx _ | .ldSTVx _ => true
  | .addIVx _ | .ldFVx _ | .ldBVx _ | .ldMemVx _ | .ldVxMem _ => true

end Sys2Proof
end

