-- ==== Sys2Proof/Decode.lean ====
section
/-! DEFINITION. Decoding (spec 30_encoding.md R90, R95, R98, R99), the encoder written from the opcode map's patterns (R96,
R10), the opcode map itself as masks and matches (R96), and the host's view of the decoder. -/

namespace Sys2Proof

/-- op[15:12], the primary opcode family (30_encoding.md R90). -/
def fieldFamily (op : Word) : BitVec 4 := op.extractLsb' 12 4

/-- X = op[11:8] (30_encoding.md R90). -/
def fieldX (op : Word) : Reg := (op.extractLsb' 8 4).toFin

/-- Y = op[7:4] (30_encoding.md R90). -/
def fieldY (op : Word) : Reg := (op.extractLsb' 4 4).toFin

/-- N = op[3:0], also the function nibble of families 5, 8 and 9 (30_encoding.md R90). -/
def fieldN (op : Word) : Nibble := op.extractLsb' 0 4

/-- NN = op[7:0], also the function byte of families E and F (30_encoding.md R90). -/
def fieldNN (op : Word) : Byte := op.extractLsb' 0 8

/-- NNN = op[11:0] (30_encoding.md R90). -/
def fieldNNN (op : Word) : Addr12 := op.extractLsb' 0 12

/-- Why bytes are no instruction: the rows of the table of illegal opcodes (30_encoding.md R99), and an input that ends before
its second byte. The cycle engine turns each of the first five into `DecodeError`. -/
inductive Reject where
  /-- 5XYn with n not 0. -/
  | family5
  /-- 8XYn with n in 8, 9, A, B, C, D, F. -/
  | family8
  /-- 9XYn with n not 0. -/
  | family9
  /-- EXnn with nn not 9E or A1. -/
  | familyE
  /-- FXnn with nn none of the nine function bytes. -/
  | familyF
  /-- Fewer than two bytes were given (30_encoding.md R91: an instruction is two bytes). -/
  | truncated
  deriving DecidableEq, Repr

/-- Family 0: CLS and RET by their whole word, every other opcode SYS (30_encoding.md R95, R98). -/
def decodeFamily0 (op : Word) : Instr :=
  if op = 0x00E0#16 then .cls
  else if op = 0x00EE#16 then .ret
  else .sys (fieldNNN op)

/-- Family 8 branches on the bottom 4 bits (30_encoding.md R95). -/
def decodeFamily8 (op : Word) : Except Reject Instr :=
  let x := fieldX op
  let y := fieldY op
  let n := fieldN op
  if n = 0x0#4 then .ok (.ldVxVy x y)
  else if n = 0x1#4 then .ok (.orVxVy x y)
  else if n = 0x2#4 then .ok (.andVxVy x y)
  else if n = 0x3#4 then .ok (.xorVxVy x y)
  else if n = 0x4#4 then .ok (.addVxVy x y)
  else if n = 0x5#4 then .ok (.subVxVy x y)
  else if n = 0x6#4 then .ok (.shrVx x y)
  else if n = 0x7#4 then .ok (.subnVxVy x y)
  else if n = 0xE#4 then .ok (.shlVx x y)
  else .error .family8

/-- Family E branches on the bottom 8 bits (30_encoding.md R95). -/
def decodeFamilyE (op : Word) : Except Reject Instr :=
  let x := fieldX op
  let nn := fieldNN op
  if nn = 0x9E#8 then .ok (.skp x)
  else if nn = 0xA1#8 then .ok (.sknp x)
  else .error .familyE

/-- Family F branches on the bottom 8 bits (30_encoding.md R95). -/
def decodeFamilyF (op : Word) : Except Reject Instr :=
  let x := fieldX op
  let nn := fieldNN op
  if nn = 0x07#8 then .ok (.ldVxDT x)
  else if nn = 0x0A#8 then .ok (.ldVxK x)
  else if nn = 0x15#8 then .ok (.ldDTVx x)
  else if nn = 0x18#8 then .ok (.ldSTVx x)
  else if nn = 0x1E#8 then .ok (.addIVx x)
  else if nn = 0x29#8 then .ok (.ldFVx x)
  else if nn = 0x33#8 then .ok (.ldBVx x)
  else if nn = 0x55#8 then .ok (.ldMemVx x)
  else if nn = 0x65#8 then .ok (.ldVxMem x)
  else .error .familyF

/-- The decode procedure: branch on the top 4 bits, then within the family (30_encoding.md R95). Total: an opcode that
selects no row is rejected by the name of its family (R99). -/
def decode (op : Word) : Except Reject Instr :=
  let f := fieldFamily op
  let x := fieldX op
  let y := fieldY op
  let nn := fieldNN op
  let nnn := fieldNNN op
  if f = 0x0#4 then .ok (decodeFamily0 op)
  else if f = 0x1#4 then .ok (.jp nnn)
  else if f = 0x2#4 then .ok (.call nnn)
  else if f = 0x3#4 then .ok (.seVxNN x nn)
  else if f = 0x4#4 then .ok (.sneVxNN x nn)
  else if f = 0x5#4 then if fieldN op = 0x0#4 then .ok (.seVxVy x y) else .error .family5
  else if f = 0x6#4 then .ok (.ldVxNN x nn)
  else if f = 0x7#4 then .ok (.addVxNN x nn)
  else if f = 0x8#4 then decodeFamily8 op
  else if f = 0x9#4 then if fieldN op = 0x0#4 then .ok (.sneVxVy x y) else .error .family9
  else if f = 0xA#4 then .ok (.ldI nnn)
  else if f = 0xB#4 then .ok (.jpV0 nnn)
  else if f = 0xC#4 then .ok (.rnd x nn)
  else if f = 0xD#4 then .ok (.drw x y (fieldN op))
  else if f = 0xE#4 then decodeFamilyE op
  else decodeFamilyF op

/-- The opcode of two consecutive bytes: the byte at the lower address is bits 15..8 (20_memory.md R65; 00_scope.md R12). -/
def opcodeOfBytes (hi lo : Byte) : Word := BitVec.ofNat 16 (hi.toNat * 256 + lo.toNat)

/-- The byte of an opcode at the lower address, op[15:8] (20_memory.md R65). -/
def highByte (op : Word) : Byte := op.extractLsb' 8 8

/-- The byte of an opcode at the higher address, op[7:0] (20_memory.md R65). -/
def lowByte (op : Word) : Byte := op.extractLsb' 0 8

/-- Decoding of any bytes: the first instruction and the bytes after it (30_encoding.md R91: every instruction is two
bytes). -/
def decodeBytes : List Byte → Except Reject (Instr × List Byte)
  | hi :: lo :: rest =>
    match decode (opcodeOfBytes hi lo) with
    | .ok i => .ok (i, rest)
    | .error r => .error r
  | _ => .error .truncated

/-- The opcode of four hex digits, most significant first (00_scope.md R10). -/
def hexDigits (d1 d2 d3 d4 : Nat) : Word := BitVec.ofNat 16 (d1 * 4096 + d2 * 256 + d3 * 16 + d4)

/-- A pattern with the literal NNN in digits 2-4 (00_scope.md R10; format `A` of 30_encoding.md R92). -/
def patternNNN (d1 : Nat) (nnn : Addr12) : Word := BitVec.ofNat 16 (d1 * 4096 + nnn.toNat)

/-- A pattern with X in digit 2 and a byte in digits 3-4 (00_scope.md R10; formats `XNN` and `X` of 30_encoding.md R92). -/
def patternXNN (d1 : Nat) (x : Reg) (nn : Byte) : Word := BitVec.ofNat 16 (d1 * 4096 + x.val * 256 + nn.toNat)

/-- The word of an instruction, from its pattern in the opcode map (30_encoding.md R96; the patterns of D29 are PRESUMED by the spec,
assumption log 12). -/
def encode : Instr → Word
  | .sys nnn => patternNNN 0x0 nnn
  | .cls => hexDigits 0x0 0x0 0xE 0x0
  | .ret => hexDigits 0x0 0x0 0xE 0xE
  | .jp nnn => patternNNN 0x1 nnn
  | .call nnn => patternNNN 0x2 nnn
  | .seVxNN x nn => patternXNN 0x3 x nn
  | .sneVxNN x nn => patternXNN 0x4 x nn
  | .seVxVy x y => hexDigits 0x5 x.val y.val 0x0
  | .ldVxNN x nn => patternXNN 0x6 x nn
  | .addVxNN x nn => patternXNN 0x7 x nn
  | .ldVxVy x y => hexDigits 0x8 x.val y.val 0x0
  | .orVxVy x y => hexDigits 0x8 x.val y.val 0x1
  | .andVxVy x y => hexDigits 0x8 x.val y.val 0x2
  | .xorVxVy x y => hexDigits 0x8 x.val y.val 0x3
  | .addVxVy x y => hexDigits 0x8 x.val y.val 0x4
  | .subVxVy x y => hexDigits 0x8 x.val y.val 0x5
  | .shrVx x y => hexDigits 0x8 x.val y.val 0x6
  | .subnVxVy x y => hexDigits 0x8 x.val y.val 0x7
  | .shlVx x y => hexDigits 0x8 x.val y.val 0xE
  | .sneVxVy x y => hexDigits 0x9 x.val y.val 0x0
  | .ldI nnn => patternNNN 0xA nnn
  | .jpV0 nnn => patternNNN 0xB nnn
  | .rnd x nn => patternXNN 0xC x nn
  | .drw x y n => hexDigits 0xD x.val y.val n.toNat
  | .skp x => patternXNN 0xE x 0x9E#8
  | .sknp x => patternXNN 0xE x 0xA1#8
  | .ldVxDT x => patternXNN 0xF x 0x07#8
  | .ldVxK x => patternXNN 0xF x 0x0A#8
  | .ldDTVx x => patternXNN 0xF x 0x15#8
  | .ldSTVx x => patternXNN 0xF x 0x18#8
  | .addIVx x => patternXNN 0xF x 0x1E#8
  | .ldFVx x => patternXNN 0xF x 0x29#8
  | .ldBVx x => patternXNN 0xF x 0x33#8
  | .ldMemVx x => patternXNN 0xF x 0x55#8
  | .ldVxMem x => patternXNN 0xF x 0x65#8

/-- The two bytes of an instruction as memory holds them (20_memory.md R65). -/
def encodeBytes (i : Instr) : List Byte := [highByte (encode i), lowByte (encode i)]

/-- The row of the opcode map an instruction belongs to, as (mask, match) (30_encoding.md R96). -/
def opcodeRow : Instr → Word × Word
  | .sys _ => (0xF000#16, 0x0000#16)
  | .cls => (0xFFFF#16, 0x00E0#16)
  | .ret => (0xFFFF#16, 0x00EE#16)
  | .jp _ => (0xF000#16, 0x1000#16)
  | .call _ => (0xF000#16, 0x2000#16)
  | .seVxNN _ _ => (0xF000#16, 0x3000#16)
  | .sneVxNN _ _ => (0xF000#16, 0x4000#16)
  | .seVxVy _ _ => (0xF00F#16, 0x5000#16)
  | .ldVxNN _ _ => (0xF000#16, 0x6000#16)
  | .addVxNN _ _ => (0xF000#16, 0x7000#16)
  | .ldVxVy _ _ => (0xF00F#16, 0x8000#16)
  | .orVxVy _ _ => (0xF00F#16, 0x8001#16)
  | .andVxVy _ _ => (0xF00F#16, 0x8002#16)
  | .xorVxVy _ _ => (0xF00F#16, 0x8003#16)
  | .addVxVy _ _ => (0xF00F#16, 0x8004#16)
  | .subVxVy _ _ => (0xF00F#16, 0x8005#16)
  | .shrVx _ _ => (0xF00F#16, 0x8006#16)
  | .subnVxVy _ _ => (0xF00F#16, 0x8007#16)
  | .shlVx _ _ => (0xF00F#16, 0x800E#16)
  | .sneVxVy _ _ => (0xF00F#16, 0x9000#16)
  | .ldI _ => (0xF000#16, 0xA000#16)
  | .jpV0 _ => (0xF000#16, 0xB000#16)
  | .rnd _ _ => (0xF000#16, 0xC000#16)
  | .drw _ _ _ => (0xF000#16, 0xD000#16)
  | .skp _ => (0xF0FF#16, 0xE09E#16)
  | .sknp _ => (0xF0FF#16, 0xE0A1#16)
  | .ldVxDT _ => (0xF0FF#16, 0xF007#16)
  | .ldVxK _ => (0xF0FF#16, 0xF00A#16)
  | .ldDTVx _ => (0xF0FF#16, 0xF015#16)
  | .ldSTVx _ => (0xF0FF#16, 0xF018#16)
  | .addIVx _ => (0xF0FF#16, 0xF01E#16)
  | .ldFVx _ => (0xF0FF#16, 0xF029#16)
  | .ldBVx _ => (0xF0FF#16, 0xF033#16)
  | .ldMemVx _ => (0xF0FF#16, 0xF055#16)
  | .ldVxMem _ => (0xF0FF#16, 0xF065#16)

/-- The masks and matches of the 35 rows of the opcode map, in the table's order (30_encoding.md R96). -/
def opcodeMap : List (Word × Word) :=
  [(0xF000#16, 0x0000#16), (0xFFFF#16, 0x00E0#16), (0xFFFF#16, 0x00EE#16), (0xF000#16, 0x1000#16), (0xF000#16, 0x2000#16),
   (0xF000#16, 0x3000#16), (0xF000#16, 0x4000#16), (0xF00F#16, 0x5000#16), (0xF000#16, 0x6000#16), (0xF000#16, 0x7000#16)]
  ++ [(0xF00F#16, 0x8000#16), (0xF00F#16, 0x8001#16), (0xF00F#16, 0x8002#16), (0xF00F#16, 0x8003#16), (0xF00F#16, 0x8004#16),
   (0xF00F#16, 0x8005#16), (0xF00F#16, 0x8006#16), (0xF00F#16, 0x8007#16), (0xF00F#16, 0x800E#16), (0xF00F#16, 0x9000#16)]
  ++ [(0xF000#16, 0xA000#16), (0xF000#16, 0xB000#16), (0xF000#16, 0xC000#16), (0xF000#16, 0xD000#16), (0xF0FF#16, 0xE09E#16),
   (0xF0FF#16, 0xE0A1#16), (0xF0FF#16, 0xF007#16), (0xF0FF#16, 0xF00A#16), (0xF0FF#16, 0xF015#16), (0xF0FF#16, 0xF018#16)]
  ++ [(0xF0FF#16, 0xF01E#16), (0xF0FF#16, 0xF029#16), (0xF0FF#16, 0xF033#16), (0xF0FF#16, 0xF055#16), (0xF0FF#16, 0xF065#16)]

/-- The host's question about a row: the instruction the decoder reads from the word `w` of `nbits` bits. An instruction is one
16-bit word, stored high byte first (20_memory.md R65). -/
def decodeTableWord (nbits w : Nat) : Option Instr :=
  let op := BitVec.ofNat 16 (w % 2 ^ nbits)
  match decodeBytes [highByte op, lowByte op] with
  | .ok (i, _) => some i
  | .error _ => none

end Sys2Proof
end

