-- ==== Sys2Proof/Machine/Defaults.lean ====
section
/-! DEFINITION. The values `State.reset` takes for the parameters the spec leaves open (00_scope.md R8; 10_state.md R40, R49):
the default font table, and the default of each open choice. -/

namespace Sys2Proof.Machine

/-- The default `FontTable`: 16 glyphs of 5 bytes, glyph k at 5k, top row first (10_state.md R40). PRESUMED: the spec takes
the bytes from general knowledge (D21, K1); assumption log 3. -/
def fontBytes : List Byte :=
  [0xF0#8, 0x90#8, 0x90#8, 0x90#8, 0xF0#8] ++ [0x20#8, 0x60#8, 0x20#8, 0x20#8, 0x70#8] ++
  [0xF0#8, 0x10#8, 0xF0#8, 0x80#8, 0xF0#8] ++ [0xF0#8, 0x10#8, 0xF0#8, 0x10#8, 0xF0#8] ++
  [0x90#8, 0x90#8, 0xF0#8, 0x10#8, 0x10#8] ++ [0xF0#8, 0x80#8, 0xF0#8, 0x10#8, 0xF0#8] ++
  [0xF0#8, 0x80#8, 0xF0#8, 0x90#8, 0xF0#8] ++ [0xF0#8, 0x10#8, 0x20#8, 0x40#8, 0x40#8] ++
  [0xF0#8, 0x90#8, 0xF0#8, 0x90#8, 0xF0#8] ++ [0xF0#8, 0x90#8, 0xF0#8, 0x10#8, 0xF0#8] ++
  [0xF0#8, 0x90#8, 0xF0#8, 0x90#8, 0x90#8] ++ [0xE0#8, 0x90#8, 0xE0#8, 0x90#8, 0xE0#8] ++
  [0xF0#8, 0x80#8, 0x80#8, 0x80#8, 0xF0#8] ++ [0xE0#8, 0x90#8, 0x90#8, 0x90#8, 0xE0#8] ++
  [0xF0#8, 0x80#8, 0xF0#8, 0x80#8, 0xF0#8] ++ [0xF0#8, 0x80#8, 0xF0#8, 0x80#8, 0x80#8]

/-- What an address that memory does not list reads as: the font byte below 0x050 (10_state.md R49), zero from there on.
DESIGN CHOICE, unsafe: the zero is this model's `InitMem` (D16), assumption log 2; PRESUMED, unsafe: the font, log 3. -/
def unlistedByte (a : Nat) : Byte := fontBytes.getD a 0#8

/-- The default `CallPushConvention` (00_scope.md R8, D6); assumption log 1. -/
def defaultCallPush : CallPushConvention := .returnAddress

/-- The default `DrawEdgePolicy` (00_scope.md R8, D9); assumption log 1. -/
def defaultDrawEdge : DrawEdgePolicy := .fault

/-- This model's `InitDrawFlag` (10_state.md R49, D17: unspecified). DESIGN CHOICE, unsafe: assumption log 4. -/
def defaultDrawFlag : Bool := false

/-- This model's `InitKeys`: no key pressed (10_state.md R49, D18: unspecified). DESIGN CHOICE, unsafe: assumption log 5. -/
def defaultKeys : Vector Bool 16 := Vector.replicate 16 false

end Sys2Proof.Machine
end

