-- ==== Sys2Proof/Machine/State.lean ====
section
/-! DEFINITION. The state of the core (spec 10_state.md R20), the faults it can take (60_exceptions.md R251), and the state
after reset (10_state.md R49). -/

namespace Sys2Proof.Machine

/-- Memory as the bytes that differ from what an unlisted address reads as (`unlistedByte`), addresses strictly rising
(`Memory.wf`, Machine/Ops.lean). -/
abbrev Memory := List Host.Cell

/-- The framebuffer `FB[x][y]`: column x in 0..63, row y in 0..31, true for a pixel that is 1 (10_state.md R35, R36). -/
abbrev Frame := Vector (Vector Bool 32) 64

/-- The seven faults of the core with the information each records (60_exceptions.md R251). A fault is taken as a NEXT state in
which the record is latched (R128, R260; assumption log 7): no step answers `Host.Outcome.fault`. -/
inductive Fault where
  /-- Code 1, raised by the fetch when pc > 0xFFE (R253). Safe: the spec's own fault (D12). -/
  | fetchOutOfRange
  /-- Code 2, raised by decode for an opcode of no row, and by SYS (R252). Safe: the spec's own fault (D5). -/
  | decodeError
  /-- Code 3, raised by CALL with SP = 16 (R255). Safe: the spec's own fault (D7). -/
  | stackOverflow
  /-- Code 4, raised by RET with SP = 0 (R256). Safe: the spec's own fault (D7). -/
  | stackUnderflow
  /-- Code 5, raised by DXYN, FX33, FX55, FX65 when an access would pass 0xFFF; `addr` is the lowest invalid address (R254,
  43_index_memory.md R197). Safe: the spec's own fault (D12). -/
  | memoryOutOfRange (addr : Nat)
  /-- Code 6, raised by DXYN under `DrawEdgePolicy.fault` when a set sprite bit lies outside the framebuffer; x0 = V[X] and
  y0 = V[Y] (R257). Safe: the spec's own fault (D9). -/
  | drawOutOfRange (x0 y0 : Byte)
  /-- Code 7, raised by EX9E and EXA1 when V[X] > 0xF (R258). Safe: the spec's own fault (D11). -/
  | keyIndexOutOfRange (k : Byte)
  deriving DecidableEq, Repr

/-- Why the model gives an instruction no meaning. The spec refuses nothing (93_implementation_defined.md, end of part 1), and
no step of this model answers `Host.Outcome.refused`. -/
inductive Refusal where
  /-- Raised by nobody: every arm of `exec` calls a meaning. Safe. -/
  | notModelled (mnemonic : String)
  deriving DecidableEq, Repr

/-- A fault record `(code, pc, op, info)` (60_exceptions.md R251): the code and the information are in `fault`; `op` is absent
for code 1. -/
structure FaultRecord where
  fault : Fault
  pc : Word
  op : Option Word
  deriving DecidableEq, Repr

/-- The state record of 10_state.md R20, and after it the model's own fields: the two open choices of the implementation, which
no step changes (00_scope.md R8; assumption log 1), and the environment of CXNN (10_state.md R43; assumption log 6). -/
structure State where
  /-- Mem (20_memory.md R60). -/
  mem : Memory
  /-- V0-VF (R21). -/
  v : Vector Byte 16
  /-- The index register I (R30). -/
  idx : Word
  /-- The program counter (R24). -/
  pc : Word
  /-- The call stack's slots (R31). -/
  stack : Vector Word 16
  /-- SP, the number of occupied slots, 0 to 16 (R31). -/
  sp : Fin 17
  /-- The delay timer (R34). -/
  dt : Byte
  /-- The sound timer (R34). -/
  st : Byte
  /-- The framebuffer (R35). -/
  fb : Frame
  /-- The keypad input state (R38). -/
  keys : Vector Bool 16
  /-- The draw flag (R39). -/
  drawFlag : Bool
  /-- The latched fault (R41). -/
  fault : Option FaultRecord
  /-- The model's own: which `CallPushConvention` this machine has. -/
  callPush : CallPushConvention
  /-- The model's own: which `DrawEdgePolicy` this machine has. -/
  drawEdge : DrawEdgePolicy
  /-- The model's own: random bytes the host has offered and no CXNN has taken yet, the next one first. -/
  randQueue : List Byte
  /-- The model's own: how many bytes the environment has drawn freely; the next is `Config.rand draws`. -/
  draws : Nat
  deriving DecidableEq, Repr

/-- The state after `Reset` with the default parameters (10_state.md R49; 70_reset_and_hazards.md R280, R281). The operation
Reset with any parameters is `hostReset` (Machine/HostOps.lean). -/
def State.reset : State :=
  { mem := []
    v := Vector.replicate 16 0#8
    idx := 0#16
    pc := 0x200#16
    stack := Vector.replicate 16 0#16
    sp := 0
    dt := 0#8
    st := 0#8
    fb := Vector.replicate 64 (Vector.replicate 32 false)
    keys := defaultKeys
    drawFlag := defaultDrawFlag
    fault := none
    callPush := defaultCallPush
    drawEdge := defaultDrawEdge
    randQueue := []
    draws := 0 }

end Sys2Proof.Machine
end

