-- ==== Sys2Proof/Machine/Ops.lean ====
section
/-! DEFINITION. The named operations over the state: memory (spec 20_memory.md), the general registers (10_state.md R21), the
call stack (R32), the framebuffer (R36), the keypad (R38), the random byte (R43), and the one fault entry of the core
(60_exceptions.md R260). The core has no return from a fault (R261): only the host's Reset leaves one. -/

namespace Sys2Proof.Machine

/-- The byte at an address (20_memory.md R60). Callers check the address first: nothing reads past 0xFFF (R62). -/
def Memory.read : Memory → Nat → Byte
  | [], a => unlistedByte a
  | (b, w) :: rest, a => if a = b then w else Memory.read rest a

/-- A list of cells with the byte at `a` made `w`, in the canonical form. -/
def Memory.put : Memory → Nat → Byte → Memory
  | [], a, w => if w = unlistedByte a then [] else [(a, w)]
  | (b, u) :: rest, a, w =>
    if b < a then (b, u) :: Memory.put rest a w
    else if b = a then (if w = unlistedByte a then rest else (a, w) :: rest)
    else (if w = unlistedByte a then (b, u) :: rest else (a, w) :: (b, u) :: rest)

/-- Set the byte at a valid address; nothing happens at an address past 0xFFF, which no instruction writes (20_memory.md R62,
R63). -/
def Memory.write (m : Memory) (a : Nat) (w : Byte) : Memory :=
  if a < Config.memSize then m.put a w else m

/-- Set the bytes at ascending addresses from `a` (20_memory.md R66). -/
def Memory.writeList : Memory → Nat → List Byte → Memory
  | m, _, [] => m
  | m, a, w :: ws => Memory.writeList (m.write a w) (a + 1) ws

/-- The `n` bytes at ascending addresses from `a` (20_memory.md R66). -/
def Memory.readList (m : Memory) (a n : Nat) : List Byte := (List.range n).map fun k => m.read (a + k)

/-- The canonical form: addresses strictly rising, each valid (20_memory.md R62), and no entry equal to what an unlisted address
reads as. -/
def Memory.wf (m : Memory) : Bool :=
  decide (m.Pairwise fun c d => c.1 < d.1) && m.all fun c => decide (c.1 < Config.memSize) && c.2 != unlistedByte c.1

/-- V[x] (10_state.md R21). -/
def readV (s : State) (x : Reg) : Byte := s.v[x.val]

/-- V[x] <- b (10_state.md R21; 00_scope.md R13). -/
def writeV (x : Reg) (b : Byte) (s : State) : State := { s with v := s.v.set x.val b }

/-- Fault entry: latch the record and change nothing else (60_exceptions.md R260; 40_cycle_engine.md R128). The record's pc is
the faulting instruction's own, since the fetch does not advance pc (10_state.md R24). -/
def raise (f : Fault) (op : Option Word) (s : State) : State := { s with fault := some ⟨f, s.pc, op⟩ }

/-- Fault entry by an instruction: the record holds the instruction's opcode (60_exceptions.md R251; assumption log 8). -/
def raiseIn (f : Fault) (i : Instr) (s : State) : State := raise f (some (encode i)) s

/-- The numbers of the fault codes (60_exceptions.md R251). -/
def faultCode : Fault → Nat
  | .fetchOutOfRange => 1
  | .decodeError => 2
  | .stackOverflow => 3
  | .stackUnderflow => 4
  | .memoryOutOfRange _ => 5
  | .drawOutOfRange _ _ => 6
  | .keyIndexOutOfRange _ => 7

/-- Push, or none when all 16 slots are occupied (10_state.md R32). -/
def push (w : Word) (s : State) : Option State :=
  if h : s.sp.val < 16 then
    some { s with stack := s.stack.set s.sp.val w, sp := ⟨s.sp.val + 1, by omega⟩ }
  else none

/-- Pop: the value and the state after, or none when the stack is empty. The slot keeps its value (10_state.md R32, D8). -/
def pop (s : State) : Option (Word × State) :=
  if h : 0 < s.sp.val then
    some (s.stack[s.sp.val - 1], { s with sp := ⟨s.sp.val - 1, by omega⟩ })
  else none

/-- What CALL pushes at its own address: the address after it, or its own, by the machine's `CallPushConvention`
(41_flow.md R143, D6). -/
def callPushes (s : State) : Word :=
  match s.callPush with
  | .returnAddress => s.pc + 2#16
  | .callAddress => s.pc

/-- Where RET goes with the popped value, by the machine's `CallPushConvention` (41_flow.md R141, D6). -/
def returnTarget (s : State) (t : Word) : Word :=
  match s.callPush with
  | .returnAddress => t
  | .callAddress => t + 2#16

/-- The pixel at column x, row y; false outside the framebuffer (10_state.md R36). -/
def Frame.pixel (f : Frame) (x y : Nat) : Bool :=
  if h : x < 64 ∧ y < 32 then f[x][y] else false

/-- FB[x][y] <- FB[x][y] ^ 1, for a pixel of the framebuffer (44_display.md R211). -/
def Frame.toggle (f : Frame) (p : Nat × Nat) : Frame :=
  if h : p.1 < 64 ∧ p.2 < 32 then f.set p.1 (f[p.1].set p.2 (!f[p.1][p.2])) else f

/-- Every pixel 0 (44_display.md R210). -/
def Frame.clear : Frame := Vector.replicate 64 (Vector.replicate 32 false)

/-- The lowest-indexed pressed key, if any (45_timers_keypad.md R233). -/
def lowestKey (s : State) : Option (Fin 16) := (List.finRange 16).find? fun k => s.keys[k.val]

/-- The byte the environment offers to this CXNN, and the state after it was taken: the host's next offered byte, else the next
free draw (10_state.md R43, R45; 42_alu.md R173; D22; assumption log 6). -/
def takeRandom (s : State) : Byte × State :=
  match s.randQueue with
  | r :: rest => (r, { s with randQueue := rest })
  | [] => (Config.rand s.draws, { s with draws := s.draws + 1 })

end Sys2Proof.Machine
end

