-- ==== Sys2Proof/Machine/Flags.lean ====
section
/-! DEFINITION. Every flag computation of the spec (10_state.md R28): the conditions under which an instruction sets VF to 1,
and the write of the flag, an instruction's last register write (R22; 42_alu.md R167). -/

namespace Sys2Proof.Machine

/-- The carry of 8XY4: the exact sum exceeds 255 (42_alu.md R168). -/
def carryOut (a b : Byte) : Bool := decide (a.toNat + b.toNat > 255)

/-- The flag of `a - b` in 8XY5 and 8XY7: no borrow, that is not `b > a` (42_alu.md R169, R171). -/
def noBorrow (a b : Byte) : Bool := !decide (b.toNat > a.toNat)

/-- The bit 8XY6 shifts out: bit 0 (42_alu.md R170). -/
def shiftedOutRight (a : Byte) : Bool := a.getLsbD 0

/-- The bit 8XYE shifts out: bit 7 (42_alu.md R172). -/
def shiftedOutLeft (a : Byte) : Bool := a.getLsbD 7

/-- The flag of FX1E: the exact sum of I and V[X] exceeds 0xFFF (43_index_memory.md R191). -/
def indexOverflow (i : Word) (a : Byte) : Bool := decide (i.toNat + a.toNat > 0xFFF)

/-- The collision flag of DXYN: some pixel of `q` is on (44_display.md R211). -/
def collides (f : Frame) (q : List (Nat × Nat)) : Bool := q.any fun p => f.pixel p.1 p.2

/-- The byte a flag is in VF: 1 or 0 (10_state.md R28). -/
def flagByte (c : Bool) : Byte := if c then 1#8 else 0#8

/-- VF <- flag (10_state.md R22). -/
def setFlag (c : Bool) (s : State) : State := writeV 15 (flagByte c) s

end Sys2Proof.Machine
end

