-- ==== Sys2Proof/Machine/Operands.lean ====
section
/-! DEFINITION. Every operand form of the spec and the ways an instruction leaves pc: the register forms read through `readV`,
the range of a memory operand (43_index_memory.md R197), the sprite of DXYN (44_display.md R211, R213), a key number
(45_timers_keypad.md R236), the next pc (10_state.md R25). -/

namespace Sys2Proof.Machine

/-- pc <- pc + 2 (10_state.md R25). pc + 2 cannot wrap in a step, which fetches at most at 0xFFE (R26; assumption log 11). -/
def advance (s : State) : State := { s with pc := s.pc + 2#16 }

/-- pc <- pc + 4 if the skip condition holds, else pc + 2 (10_state.md R25). -/
def skipIf (c : Bool) (s : State) : State := { s with pc := if c then s.pc + 4#16 else s.pc + 2#16 }

/-- pc <- target (41_flow.md R149). -/
def jumpTo (t : Word) (s : State) : State := { s with pc := t }

/-- I <- w (10_state.md R30). -/
def setIdx (w : Word) (s : State) : State := { s with idx := w }

/-- `CheckRange(lo, lo + n - 1)` for an access of `n` bytes from `lo`: the lowest invalid address it would touch, or none when
every byte is valid or there is no byte (43_index_memory.md R197; 20_memory.md R62: the addresses are integers). -/
def rangeFault (lo n : Nat) : Option Nat :=
  if n = 0 ∨ lo + n ≤ Config.memSize then none else some (max lo Config.memSize)

/-- The three BCD digits of a byte, hundreds first (43_index_memory.md R193). -/
def bcdDigits (b : Byte) : List Byte :=
  [BitVec.ofNat 8 (b.toNat / 100), BitVec.ofNat 8 (b.toNat / 10 % 10), BitVec.ofNat 8 (b.toNat % 10)]

/-- V[0], ..., V[x] in order (43_index_memory.md R194). -/
def registersTo (s : State) (x : Reg) : List Byte := s.v.toList.take (x.val + 1)

/-- V[i] <- the byte at I + i, for i = 0 to x; the registers above x keep their values (43_index_memory.md R195). -/
def loadRegistersTo (x : Reg) (s : State) : State :=
  { s with v := s.v.mapIdx fun i b => if i ≤ x.val then s.mem.read (s.idx.toNat + i) else b }

/-- The set bits of one sprite row at row y: the pixel of column c is bit 7 - c (44_display.md R213, D30, K6: PRESUMED by the spec,
assumption log 12). -/
def spriteRow (x0 y : Nat) (b : Byte) : List (Nat × Nat) :=
  ((List.range 8).filter fun c => b.getLsbD (7 - c)).map fun c => (x0 + c, y)

/-- The set P of DXYN: the pixels of the set bits of the sprite at (x0, y0), as integers (44_display.md R211). -/
def spritePixels (x0 y0 : Nat) : List Byte → List (Nat × Nat)
  | [] => []
  | b :: bs => spriteRow x0 y0 b ++ spritePixels x0 (y0 + 1) bs

/-- A pixel lies in the framebuffer (44_display.md R211). -/
def onScreen (p : Nat × Nat) : Bool := decide (p.1 < 64) && decide (p.2 < 32)

/-- `KeyIndex(k)`: the key numbered by a register's value, or none when it is above 0xF (45_timers_keypad.md R236). -/
def keyIndex (k : Byte) : Option (Fin 16) := if h : k.toNat < 16 then some ⟨k.toNat, h⟩ else none

end Sys2Proof.Machine
end

