-- ==== Sys2Proof/Machine/Cycle.lean ====
section
/-! DEFINITION. The parts of the cycle engine around an instruction: fetch, tick, stall and the end of a cycle (spec
40_cycle_engine.md). `step` (Machine/Step.lean) puts them together. -/

namespace Sys2Proof.Machine

/-- The opcode at pc and pc + 1, or none when pc > 0xFFE (40_cycle_engine.md R122; 20_memory.md R65). -/
def fetch (s : State) : Option Word :=
  if s.pc.toNat ≤ 0xFFE then some (opcodeOfBytes (s.mem.read s.pc.toNat) (s.mem.read (s.pc.toNat + 1))) else none

/-- A timer's tick: one less, floored at 0 (40_cycle_engine.md R127). -/
def tickTimer (t : Byte) : Byte := if t.toNat > 0 then t - 1#8 else t

/-- `Tick()`: each timer on its own (40_cycle_engine.md R127). -/
def tick (s : State) : State := { s with dt := tickTimer s.dt, st := tickTimer s.st }

/-- The outcome of executing `i` is `Stall`: an FX0A with no key pressed (40_cycle_engine.md R124, R126; 45_timers_keypad.md
R233). -/
def stalls (i : Instr) (s : State) : Bool :=
  match i with
  | .ldVxK _ => (lowestKey s).isNone
  | .sys _ | .cls | .ret | .jp _ | .call _ | .ldI _ | .jpV0 _ => false
  | .seVxNN _ _ | .sneVxNN _ _ | .ldVxNN _ _ | .addVxNN _ _ | .rnd _ _ => false
  | .seVxVy _ _ | .sneVxVy _ _ | .ldVxVy _ _ | .orVxVy _ _ | .andVxVy _ _ | .xorVxVy _ _ => false
  | .addVxVy _ _ | .subVxVy _ _ | .shrVx _ _ | .subnVxVy _ _ | .shlVx _ _ | .drw _ _ _ => false
  | .skp _ | .sknp _ | .ldVxDT _ | .ldDTVx _ | .ldSTVx _ => false
  | .addIVx _ | .ldFVx _ | .ldBVx _ | .ldMemVx _ | .ldVxMem _ => false

/-- The end of a cycle that executed `i` from `s` to `s'`: no tick after a fault (40_cycle_engine.md R128) or a stall (R126),
one tick after a completed instruction (R125). DEDUCED: assumption log 9. -/
def endCycle (i : Instr) (s s' : State) : State :=
  if s'.fault.isSome then s' else if stalls i s then s' else tick s'

end Sys2Proof.Machine
end

