-- ==== Sys2Proof/Machine/Alu.lean ====
section
/-! DEFINITION. Arithmetic, logic, shift and random (spec 42_alu.md). Results are reduced modulo 256 (R160). The flag-writing
instructions read their operands, then write the result, then the flag (R167). -/

namespace Sys2Proof.Machine

/-- V[X] <- r, and on to the next instruction: the shape of every instruction here that writes no flag. -/
def writeResult (x : Reg) (r : Byte) (s : State) : State := advance (writeV x r s)

/-- V[X] <- r, then VF <- the flag, and on to the next instruction (R167). -/
def writeResultFlag (x : Reg) (r : Byte) (c : Bool) (s : State) : State := advance (setFlag c (writeV x r s))

/-- LD VX, NN (R161). -/
def execLdVxNN (x : Reg) (nn : Byte) (s : State) : Host.Outcome State Fault Refusal :=
  .next (writeResult x nn s)

/-- ADD VX, NN: no flag (R162). -/
def execAddVxNN (x : Reg) (nn : Byte) (s : State) : Host.Outcome State Fault Refusal :=
  .next (writeResult x (readV s x + nn) s)

/-- LD VX, VY (R163). -/
def execLdVxVy (x y : Reg) (s : State) : Host.Outcome State Fault Refusal :=
  .next (writeResult x (readV s y) s)

/-- OR VX, VY: no flag (R164, D26). -/
def execOrVxVy (x y : Reg) (s : State) : Host.Outcome State Fault Refusal :=
  .next (writeResult x (readV s x ||| readV s y) s)

/-- AND VX, VY: no flag (R165, D26). -/
def execAndVxVy (x y : Reg) (s : State) : Host.Outcome State Fault Refusal :=
  .next (writeResult x (readV s x &&& readV s y) s)

/-- XOR VX, VY: no flag (R166, D26). -/
def execXorVxVy (x y : Reg) (s : State) : Host.Outcome State Fault Refusal :=
  .next (writeResult x (readV s x ^^^ readV s y) s)

/-- ADD VX, VY: VF = carry (R168). -/
def execAddVxVy (x y : Reg) (s : State) : Host.Outcome State Fault Refusal :=
  .next (writeResultFlag x (readV s x + readV s y) (carryOut (readV s x) (readV s y)) s)

/-- SUB VX, VY: VX - VY, VF = no borrow (R169). -/
def execSubVxVy (x y : Reg) (s : State) : Host.Outcome State Fault Refusal :=
  .next (writeResultFlag x (readV s x - readV s y) (noBorrow (readV s x) (readV s y)) s)

/-- SHR VX: Y is ignored (R170; 30_encoding.md R94). -/
def execShrVx (x _y : Reg) (s : State) : Host.Outcome State Fault Refusal :=
  .next (writeResultFlag x (readV s x >>> 1) (shiftedOutRight (readV s x)) s)

/-- SUBN VX, VY: VY - VX, VF = no borrow (R171). -/
def execSubnVxVy (x y : Reg) (s : State) : Host.Outcome State Fault Refusal :=
  .next (writeResultFlag x (readV s y - readV s x) (noBorrow (readV s y) (readV s x)) s)

/-- SHL VX: Y is ignored (R172; 30_encoding.md R94). -/
def execShlVx (x _y : Reg) (s : State) : Host.Outcome State Fault Refusal :=
  .next (writeResultFlag x (readV s x <<< 1) (shiftedOutLeft (readV s x)) s)

/-- RND VX, NN: the environment's byte AND the literal (R173, D22). -/
def execRnd (x : Reg) (nn : Byte) (s : State) : Host.Outcome State Fault Refusal :=
  .next (writeResult x ((takeRandom s).1 &&& nn) (takeRandom s).2)

end Sys2Proof.Machine
end

