-- ==== Sys2Proof/Machine/Display.lean ====
section
/-! DEFINITION. Clear screen and the sprite draw (spec 44_display.md). -/

namespace Sys2Proof.Machine

/-- CLS (R210): the draw flag is set whether or not a pixel changes (C12). -/
def execCls (s : State) : Host.Outcome State Fault Refusal :=
  .next (advance { s with fb := Frame.clear, drawFlag := true })

/-- The set P of a DXYN: V[X] and V[Y] are read before VF is written (R211, D10). -/
def drawPixels (x y : Reg) (n : Nibble) (s : State) : List (Nat × Nat) :=
  spritePixels (readV s x).toNat (readV s y).toNat (s.mem.readList s.idx.toNat n.toNat)

/-- A set sprite bit outside the framebuffer faults, under `DrawEdgePolicy.fault` only (R211, R212, D9). -/
def drawFaults (p : List (Nat × Nat)) (s : State) : Bool :=
  decide (s.drawEdge = .fault) && p.any fun q => !onScreen q

/-- Toggle the pixels of `p` that are on the screen, set VF to the collision flag and the draw flag to true (R211). -/
def drawOn (p : List (Nat × Nat)) (s : State) : State :=
  setFlag (collides s.fb (p.filter onScreen))
    { s with fb := (p.filter onScreen).foldl Frame.toggle s.fb, drawFlag := true }

/-- DRW VX, VY, N: the memory check, then the edge check, then the draw; I is unchanged (R211, R212; 60_exceptions.md R259). -/
def execDrw (x y : Reg) (n : Nibble) (s : State) : Host.Outcome State Fault Refusal :=
  match rangeFault s.idx.toNat n.toNat with
  | some a => .next (raiseIn (.memoryOutOfRange a) (.drw x y n) s)
  | none =>
    if drawFaults (drawPixels x y n s) s then
      .next (raiseIn (.drawOutOfRange (readV s x) (readV s y)) (.drw x y n) s)
    else .next (advance (drawOn (drawPixels x y n s) s))

end Sys2Proof.Machine
end

