-- ==== Sys2Proof/Machine/Flow.lean ====
section
/-! DEFINITION. Control flow and the register and literal skips (spec 41_flow.md). -/

namespace Sys2Proof.Machine

/-- SYS NNN: no effect is defined; it raises `DecodeError` (R140, R98, D5). -/
def execSys (nnn : Addr12) (s : State) : Host.Outcome State Fault Refusal :=
  .next (raiseIn .decodeError (.sys nnn) s)

/-- RET: pop and go to the return address; `StackUnderflow` on an empty stack (R141). -/
def execRet (s : State) : Host.Outcome State Fault Refusal :=
  match pop s with
  | some (t, s') => .next (jumpTo (returnTarget s t) s')
  | none => .next (raiseIn .stackUnderflow .ret s)

/-- JP NNN (R142). -/
def execJp (nnn : Addr12) (s : State) : Host.Outcome State Fault Refusal :=
  .next (jumpTo (nnn.setWidth 16) s)

/-- CALL NNN: push and jump; `StackOverflow` on a full stack (R143). -/
def execCall (nnn : Addr12) (s : State) : Host.Outcome State Fault Refusal :=
  match push (callPushes s) s with
  | some s' => .next (jumpTo (nnn.setWidth 16) s')
  | none => .next (raiseIn .stackOverflow (.call nnn) s)

/-- JP V0, NNN: no reduction of the sum (R144, D14). -/
def execJpV0 (nnn : Addr12) (s : State) : Host.Outcome State Fault Refusal :=
  .next (jumpTo (nnn.setWidth 16 + (readV s 0).setWidth 16) s)

/-- SE VX, NN (R145). -/
def execSeVxNN (x : Reg) (nn : Byte) (s : State) : Host.Outcome State Fault Refusal :=
  .next (skipIf (readV s x == nn) s)

/-- SNE VX, NN (R146). -/
def execSneVxNN (x : Reg) (nn : Byte) (s : State) : Host.Outcome State Fault Refusal :=
  .next (skipIf (readV s x != nn) s)

/-- SE VX, VY (R147). -/
def execSeVxVy (x y : Reg) (s : State) : Host.Outcome State Fault Refusal :=
  .next (skipIf (readV s x == readV s y) s)

/-- SNE VX, VY (R148). -/
def execSneVxVy (x y : Reg) (s : State) : Host.Outcome State Fault Refusal :=
  .next (skipIf (readV s x != readV s y) s)

end Sys2Proof.Machine
end

