-- ==== Sys2Proof/Machine/Index.lean ====
section
/-! DEFINITION. The index register and the memory transfers through it (spec 43_index_memory.md). Each check comes before every
write, so a fault leaves no part of a transfer done (20_memory.md R69). -/

namespace Sys2Proof.Machine

/-- LD I, NNN (R190). -/
def execLdI (nnn : Addr12) (s : State) : Host.Outcome State Fault Refusal :=
  .next (advance (setIdx (nnn.setWidth 16) s))

/-- ADD I, VX: the sum modulo 2^16, then VF = (sum > 0xFFF) as the last effect (R191, D13, D27). -/
def execAddIVx (x : Reg) (s : State) : Host.Outcome State Fault Refusal :=
  .next (advance (setFlag (indexOverflow s.idx (readV s x)) (setIdx (s.idx + (readV s x).setWidth 16) s)))

/-- LD F, VX: V[X] is not masked (R192, D15). -/
def execLdFVx (x : Reg) (s : State) : Host.Outcome State Fault Refusal :=
  .next (advance (setIdx ((readV s x).setWidth 16 * 5#16) s))

/-- LD B, VX: the BCD digits to I, I + 1, I + 2; I is unchanged (R193). -/
def execLdBVx (x : Reg) (s : State) : Host.Outcome State Fault Refusal :=
  match rangeFault s.idx.toNat 3 with
  | some a => .next (raiseIn (.memoryOutOfRange a) (.ldBVx x) s)
  | none => .next (advance { s with mem := s.mem.writeList s.idx.toNat (bcdDigits (readV s x)) })

/-- I <- I + X + 1 (R194, R195). -/
def bumpIdx (x : Reg) (s : State) : State := setIdx (s.idx + BitVec.ofNat 16 (x.val + 1)) s

/-- LD [I], VX: V[0..X] to I.., then I advances by X + 1 (R194). -/
def execLdMemVx (x : Reg) (s : State) : Host.Outcome State Fault Refusal :=
  match rangeFault s.idx.toNat (x.val + 1) with
  | some a => .next (raiseIn (.memoryOutOfRange a) (.ldMemVx x) s)
  | none => .next (advance (bumpIdx x { s with mem := s.mem.writeList s.idx.toNat (registersTo s x) }))

/-- LD VX, [I]: V[0..X] from I.., then I advances by X + 1 (R195). -/
def execLdVxMem (x : Reg) (s : State) : Host.Outcome State Fault Refusal :=
  match rangeFault s.idx.toNat (x.val + 1) with
  | some a => .next (raiseIn (.memoryOutOfRange a) (.ldVxMem x) s)
  | none => .next (advance (bumpIdx x (loadRegistersTo x s)))

end Sys2Proof.Machine
end

