-- ==== Sys2Proof/Machine/Timers.lean ====
section
/-! DEFINITION. The keypad and timer instructions (spec 45_timers_keypad.md). The tick is the cycle engine's (Machine/Cycle.lean). -/

namespace Sys2Proof.Machine

/-- SKP VX: `KeyIndexOutOfRange` when V[X] > 0xF (R230, R236). -/
def execSkp (x : Reg) (s : State) : Host.Outcome State Fault Refusal :=
  match keyIndex (readV s x) with
  | some k => .next (skipIf s.keys[k.val] s)
  | none => .next (raiseIn (.keyIndexOutOfRange (readV s x)) (.skp x) s)

/-- SKNP VX: `KeyIndexOutOfRange` when V[X] > 0xF (R231, R236). -/
def execSknp (x : Reg) (s : State) : Host.Outcome State Fault Refusal :=
  match keyIndex (readV s x) with
  | some k => .next (skipIf (!s.keys[k.val]) s)
  | none => .next (raiseIn (.keyIndexOutOfRange (readV s x)) (.sknp x) s)

/-- LD VX, DT: DT before this cycle's tick (R232). -/
def execLdVxDT (x : Reg) (s : State) : Host.Outcome State Fault Refusal :=
  .next (advance (writeV x s.dt s))

/-- LD VX, K: the lowest pressed key, or a stall that changes nothing (R233). -/
def execLdVxK (x : Reg) (s : State) : Host.Outcome State Fault Refusal :=
  match lowestKey s with
  | some k => .next (advance (writeV x (BitVec.ofNat 8 k.val) s))
  | none => .next s

/-- LD DT, VX (R234). -/
def execLdDTVx (x : Reg) (s : State) : Host.Outcome State Fault Refusal :=
  .next (advance { s with dt := readV s x })

/-- LD ST, VX (R235). -/
def execLdSTVx (x : Reg) (s : State) : Host.Outcome State Fault Refusal :=
  .next (advance { s with st := readV s x })

end Sys2Proof.Machine
end

