-- ==== Sys2Proof/Machine/Step.lean ====
section
/-! DEFINITION. The one step of the core: a cycle (spec 40_cycle_engine.md R120), and the host's way to place one instruction
where the next cycle fetches it. -/

namespace Sys2Proof.Machine

/-- `Cycle` (40_cycle_engine.md R120): a latched fault stops everything (R121); fetch (R122); decode (R123); execute (R124); the
tick, the stall or the fault at the end (R125-R128). -/
def step (s : State) : Host.Outcome State Fault Refusal :=
  match s.fault with
  | some _ => .next s
  | none =>
    match fetch s with
    | none => .next (raise .fetchOutOfRange none s)
    | some op =>
      match decode op with
      | .error _ => .next (raise .decodeError (some op) s)
      | .ok i =>
        match exec i s with
        | .next s' => .next (endCycle i s s')
        | .fault f => .fault f
        | .refused r => .refused r

/-- `s` with the instruction whose bits are `w` stored where the next cycle fetches: high byte at pc, low byte at pc + 1. A cycle
fetches only with no fault latched and at a pc of at most 0xFFE, so a latched fault is cleared, and a pc above 0xFFE becomes
0x200; nothing else changes. It stands for the host's Load (assumption log 10). -/
def State.withFetchWord (s : State) (nbits w : Nat) : State :=
  let op := BitVec.ofNat 16 (w % 2 ^ nbits)
  let pc := if s.pc.toNat ≤ 0xFFE then s.pc else 0x200#16
  { s with fault := none, pc := pc, mem := s.mem.writeList pc.toNat [highByte op, lowByte op] }

end Sys2Proof.Machine
end

