-- ==== Sys2Proof/Machine/HostOps.lean ====
section
/-! DEFINITION. The host operations (spec 10_state.md R46): each takes effect entirely before or after a cycle (R47). The debug
view (R48) is the state itself. -/

namespace Sys2Proof.Machine

/-- The arguments of `Reset` (10_state.md R46; 00_scope.md R8): `FontTable`, `InitMem` for 0x050-0xFFF, `InitDrawFlag`,
`InitKeys`. -/
structure ResetParams where
  font : Vector Byte 80
  initMem : Vector Byte 4016
  drawFlag : Bool
  keys : Vector Bool 16
  deriving DecidableEq, Repr

/-- `Reset` (70_reset_and_hazards.md R280; 10_state.md R49): every field of the spec's state record gets its reset value and none
depends on the state before. The machine's two open choices and the random source are no core state (00_scope.md R8;
10_state.md R43) and stay as they are. -/
def hostReset (p : ResetParams) (s : State) : State :=
  { mem := Memory.writeList [] 0 (p.font.toList ++ p.initMem.toList)
    v := Vector.replicate 16 0#8
    idx := 0#16
    pc := 0x200#16
    stack := Vector.replicate 16 0#16
    sp := 0
    dt := 0#8
    st := 0#8
    fb := Frame.clear
    keys := p.keys
    drawFlag := p.drawFlag
    fault := none
    callPush := s.callPush
    drawEdge := s.drawEdge
    randQueue := s.randQueue
    draws := s.draws }

/-- The reply of `Load` (10_state.md R46). -/
inductive LoadReply where
  | ok
  | capacityError
  deriving DecidableEq, Repr

/-- `Load(rom)` (70_reset_and_hazards.md R284, R285): too long a ROM changes nothing; else its bytes go to 0x200 and up, and
nothing else changes. -/
def hostLoad (rom : List Byte) (s : State) : LoadReply × State :=
  if rom.length > Config.romCapacity then (.capacityError, s)
  else (.ok, { s with mem := s.mem.writeList Config.programStart rom })

/-- `SetKeys(k)` (10_state.md R38, R46). -/
def hostSetKeys (k : Vector Bool 16) (s : State) : State := { s with keys := k }

/-- `Cycle(r)` (40_cycle_engine.md R120; 10_state.md R45): one cycle in which `r` is the byte offered to a CXNN, if one executes. The
offer ends with the cycle. -/
def hostCycle (r : Byte) (s : State) : Host.Outcome State Fault Refusal :=
  match step { s with randQueue := r :: s.randQueue } with
  | .next t => .next { t with randQueue := s.randQueue }
  | .fault f => .fault f
  | .refused e => .refused e

/-- What `Cycle` returns, read from the state it leaves: none for Ok, or the latched fault's record (40_cycle_engine.md R120, R121,
R128). -/
def cycleReply (t : State) : Option FaultRecord := t.fault

/-- `ReadFrame` (10_state.md R44, R46). -/
def hostReadFrame (s : State) : Frame := s.fb

/-- `ReadDrawFlag` (10_state.md R44, R46). -/
def hostReadDrawFlag (s : State) : Bool := s.drawFlag

/-- `ClearDrawFlag` (10_state.md R39, R46). -/
def hostClearDrawFlag (s : State) : State := { s with drawFlag := false }

end Sys2Proof.Machine
end

