-- ==== Sys2Proof/Safety.lean ====
section
/-! DEFINITION. What counts as a safe run, and the terms the claims use: the spec's whole-machine tables (which registers and
bytes an instruction writes, where pc goes), its table of illegal opcodes, the pixels of a sprite, and the bounds of pc. -/

namespace Sys2Proof.Machine

/-- A safe state: no fault is latched (spec 10_state.md R41). -/
def State.running (s : State) : Prop := s.fault = none

/-- A row of the opcode map selects an instruction: every opcode with these fixed bits decodes to it (30_encoding.md R96). -/
def SelectsRow (mask fixed : Word) (mk : Word → Instr) : Prop := ∀ op : Word, op &&& mask = fixed → decode op = .ok (mk op)

/-- The cycle from `s` decodes `i`: no fault is latched, and the two bytes at pc are an opcode of `i` (40_cycle_engine.md R120-R123;
20_memory.md R65). -/
def Decodes (s : State) (i : Instr) : Prop :=
  s.fault = none ∧ s.pc.toNat ≤ 0xFFE ∧
    decode (opcodeOfBytes (s.mem.read s.pc.toNat) (s.mem.read (s.pc.toNat + 1))) = .ok i

/-- The cycle from `s` completes `i` and leaves `t`: it decodes `i`, takes no fault, and is no stall, that is no FX0A with no key
pressed (40_cycle_engine.md R124-R126, R128). -/
def Completes (s : State) (i : Instr) (t : State) : Prop :=
  Decodes s i ∧ step s = .next t ∧ t.fault = none ∧ ((∀ x, i ≠ .ldVxK x) ∨ ∃ k : Fin 16, s.keys[k.val] = true)

/-- `n` cycles in a row lead from `s` to `t`, each completing an instruction that has the property `p`. -/
def CompletesEach (p : Instr → Prop) : Nat → State → State → Prop
  | 0, s, t => t = s
  | n + 1, s, t => ∃ i u, p i ∧ Completes s i u ∧ CompletesEach p n u t

/-- The illegal opcodes, family by family (30_encoding.md R99). -/
def illegalOpcode (op : Word) : Bool :=
  let f := op.toNat / 4096
  let n := op.toNat % 16
  let nn := op.toNat % 256
  (f == 5 && n != 0) || (f == 8 && [0x8, 0x9, 0xA, 0xB, 0xC, 0xD, 0xF].contains n) || (f == 9 && n != 0) ||
  (f == 0xE && !([0x9E, 0xA1].contains nn)) ||
  (f == 0xF && !([0x07, 0x0A, 0x15, 0x18, 0x1E, 0x29, 0x33, 0x55, 0x65].contains nn))

/-- The column "writes" of the register access table (10_state.md R23). -/
def writesReg (i : Instr) (r : Reg) : Bool :=
  match i with
  | .ldVxNN x _ | .addVxNN x _ | .ldVxVy x _ | .orVxVy x _ | .andVxVy x _ | .xorVxVy x _ => r == x
  | .rnd x _ | .ldVxDT x | .ldVxK x => r == x
  | .addVxVy x _ | .subVxVy x _ | .shrVx x _ | .subnVxVy x _ | .shlVx x _ => r == x || r == 15
  | .drw _ _ _ | .addIVx _ => r == 15
  | .ldVxMem x => decide (r.val ≤ x.val)
  | .sys _ | .cls | .ret | .jp _ | .call _ | .ldI _ | .jpV0 _ => false
  | .seVxNN _ _ | .sneVxNN _ _ | .seVxVy _ _ | .sneVxVy _ _ | .skp _ | .sknp _ => false
  | .ldDTVx _ | .ldSTVx _ | .ldFVx _ | .ldBVx _ | .ldMemVx _ => false

/-- The bytes an instruction stores to: I to I + 2 for FX33, I to I + X for FX55, none for every other (20_memory.md R68). -/
def storesTo (i : Instr) (s : State) (a : Nat) : Bool :=
  match i with
  | .ldBVx _ => decide (s.idx.toNat ≤ a) && decide (a < s.idx.toNat + 3)
  | .ldMemVx x => decide (s.idx.toNat ≤ a) && decide (a < s.idx.toNat + (x.val + 1))
  | .sys _ | .cls | .ret | .jp _ | .call _ | .ldI _ | .jpV0 _ => false
  | .seVxNN _ _ | .sneVxNN _ _ | .ldVxNN _ _ | .addVxNN _ _ | .rnd _ _ => false
  | .seVxVy _ _ | .sneVxVy _ _ | .ldVxVy _ _ | .orVxVy _ _ | .andVxVy _ _ | .xorVxVy _ _ => false
  | .addVxVy _ _ | .subVxVy _ _ | .shrVx _ _ | .subnVxVy _ _ | .shlVx _ _ | .drw _ _ _ => false
  | .skp _ | .sknp _ | .ldVxDT _ | .ldVxK _ | .ldDTVx _ | .ldSTVx _ => false
  | .addIVx _ | .ldFVx _ | .ldVxMem _ => false

/-- The instructions that write I (10_state.md R30). -/
def writesIdx (i : Instr) : Bool :=
  match i with
  | .ldI _ | .addIVx _ | .ldFVx _ | .ldMemVx _ | .ldVxMem _ => true
  | .sys _ | .cls | .ret | .jp _ | .call _ | .jpV0 _ => false
  | .seVxNN _ _ | .sneVxNN _ _ | .ldVxNN _ _ | .addVxNN _ _ | .rnd _ _ => false
  | .seVxVy _ _ | .sneVxVy _ _ | .ldVxVy _ _ | .orVxVy _ _ | .andVxVy _ _ | .xorVxVy _ _ => false
  | .addVxVy _ _ | .subVxVy _ _ | .shrVx _ _ | .subnVxVy _ _ | .shlVx _ _ | .drw _ _ _ => false
  | .skp _ | .sknp _ | .ldVxDT _ | .ldVxK _ | .ldDTVx _ | .ldSTVx _ | .ldBVx _ => false

/-- The pc an instruction sets when it completes or stalls (10_state.md R25). -/
def nextPc (i : Instr) (s : State) : Word :=
  match i with
  | .seVxNN x nn => if readV s x = nn then s.pc + 4#16 else s.pc + 2#16
  | .sneVxNN x nn => if readV s x ≠ nn then s.pc + 4#16 else s.pc + 2#16
  | .seVxVy x y => if readV s x = readV s y then s.pc + 4#16 else s.pc + 2#16
  | .sneVxVy x y => if readV s x ≠ readV s y then s.pc + 4#16 else s.pc + 2#16
  | .skp x => if s.keys[(readV s x).toNat]? = some true then s.pc + 4#16 else s.pc + 2#16
  | .sknp x => if s.keys[(readV s x).toNat]? = some false then s.pc + 4#16 else s.pc + 2#16
  | .jp nnn | .call nnn => BitVec.ofNat 16 nnn.toNat
  | .jpV0 nnn => BitVec.ofNat 16 (nnn.toNat + (readV s 0).toNat)
  | .ret => returnTarget s (s.stack[s.sp.val - 1]?.getD 0#16)
  | .ldVxK _ => if ∃ k : Fin 16, s.keys[k.val] = true then s.pc + 2#16 else s.pc
  | .sys _ | .cls | .ldI _ | .ldVxNN _ _ | .addVxNN _ _ | .rnd _ _ => s.pc + 2#16
  | .ldVxVy _ _ | .orVxVy _ _ | .andVxVy _ _ | .xorVxVy _ _ => s.pc + 2#16
  | .addVxVy _ _ | .subVxVy _ _ | .shrVx _ _ | .subnVxVy _ _ | .shlVx _ _ | .drw _ _ _ => s.pc + 2#16
  | .ldVxDT _ | .ldDTVx _ | .ldSTVx _ => s.pc + 2#16
  | .addIVx _ | .ldFVx _ | .ldBVx _ | .ldMemVx _ | .ldVxMem _ => s.pc + 2#16

/-- The sprite of `DRW VX, VY, n` from `s` has a set bit at the pixel (px, py): bit 7 - c of row r, with px = V[X] + c and
py = V[Y] + r as integers (44_display.md R211, R213). -/
def lit (s : State) (x y : Reg) (n : Nibble) (px py : Nat) : Prop :=
  (readV s x).toNat ≤ px ∧ px < (readV s x).toNat + 8 ∧ (readV s y).toNat ≤ py ∧ py < (readV s y).toNat + n.toNat ∧
    (s.mem.read (s.idx.toNat + (py - (readV s y).toNat))).getLsbD (7 - (px - (readV s x).toNat)) = true

/-- The invariant behind "the pc never wraps" (10_state.md R26): pc is at most 0x10FE, and a return through any occupied slot goes
to at most 0x1000. -/
def State.pcBounded (s : State) : Prop :=
  s.pc.toNat ≤ 0x10FE ∧ ∀ k : Fin 16, k.val < s.sp.val → (returnTarget s s.stack[k.val]).toNat ≤ 0x1000

end Sys2Proof.Machine
end

