-- ==== Sys2Proof/Certificates/Slice0/Obligations.lean ====
section
/-! DEFINITION. The statements for the provers, each from the rules of spec/ its docstring cites. "The model's choice" or "the
spec's decision D<n>" in a docstring marks a clause that is no plain rule of the source. -/

open Sys2Proof Sys2Proof.Machine

/-! ## Decoding and encoding -/

/-- 30_encoding.md R95, R96, R98: the word of every well-formed instruction, at every value of every operand field, decodes to it, and
so do its two bytes in front of any others. -/
def Obligations.DecodeOfEncodeIsInstruction : Prop :=
  ∀ (i : Instr) (rest : List Byte), i.wf = true → decode (encode i) = .ok i ∧ decodeBytes (encodeBytes i ++ rest) = .ok (i, rest)

/-- 30_encoding.md R96, R97: a decoded opcode is the word of the instruction it decodes to, which is well formed; so no two opcodes
decode to one instruction and no bit of an opcode is dropped. -/
def Obligations.EncodeOfDecodeIsOpcode : Prop :=
  ∀ (op : Word) (i : Instr), decode op = .ok i → i.wf = true ∧ encode i = op

/-- 30_encoding.md R96, R99: a decoded opcode has the mask and match of its instruction's row; the rows are the opcode map's; and the
decoder rejects exactly the opcodes that match no row of the map. -/
def Obligations.DecodeFollowsOpcodeMap : Prop :=
  (∀ (op : Word) (i : Instr), decode op = .ok i → op &&& (opcodeRow i).1 = (opcodeRow i).2) ∧
  (∀ i : Instr, opcodeRow i ∈ opcodeMap) ∧
  (∀ op : Word, (∀ i : Instr, decode op ≠ .ok i) ↔ ∀ row ∈ opcodeMap, op &&& row.1 ≠ row.2)

/-- 30_encoding.md R97, R98: no opcode matches two rows of the map other than SYS, CLS and RET; an opcode that matches SYS's row matches
no row but SYS, CLS and RET. -/
def Obligations.OpcodeRowsAreDisjoint : Prop :=
  (∀ (op : Word), ∀ r ∈ opcodeMap.drop 3, ∀ q ∈ opcodeMap.drop 3, op &&& r.1 = r.2 → op &&& q.1 = q.2 → r = q) ∧
  (∀ (op : Word), ∀ r ∈ opcodeMap.drop 3, op &&& 0xF000#16 = 0x0000#16 → op &&& r.1 ≠ r.2)

/-- 30_encoding.md R99, D5: the decoder rejects exactly the illegal opcodes of the table, and a cycle that fetches one takes
`DecodeError` with that opcode and changes nothing but the fault record. -/
def Obligations.IllegalOpcodesTakeDecodeError : Prop :=
  (∀ op : Word, illegalOpcode op = true ↔ ∀ i : Instr, decode op ≠ .ok i) ∧
  (∀ s : State, s.fault = none → s.pc.toNat ≤ 0xFFE →
    illegalOpcode (opcodeOfBytes (s.mem.read s.pc.toNat) (s.mem.read (s.pc.toNat + 1))) = true →
    step s = .next { s with fault := some ⟨.decodeError, s.pc,
      some (opcodeOfBytes (s.mem.read s.pc.toNat) (s.mem.read (s.pc.toNat + 1)))⟩ })

/-- 30_encoding.md R90, R96: a word written out from the map's patterns for each of the sixteen families op[15:12], and for CLS and RET
beside SYS, decodes to its instruction. -/
def Obligations.WrittenWordsDecode : Prop :=
  decode 0x0123#16 = .ok (.sys 0x123#12) ∧ decode 0x00E0#16 = .ok .cls ∧ decode 0x00EE#16 = .ok .ret ∧
  decode 0x120A#16 = .ok (.jp 0x20A#12) ∧ decode 0x2345#16 = .ok (.call 0x345#12) ∧
  decode 0x332A#16 = .ok (.seVxNN 3 0x2A#8) ∧ decode 0x4B3C#16 = .ok (.sneVxNN 11 0x3C#8) ∧
  decode 0x5AB0#16 = .ok (.seVxVy 10 11) ∧ decode 0x6F12#16 = .ok (.ldVxNN 15 0x12#8) ∧
  decode 0x7E34#16 = .ok (.addVxNN 14 0x34#8) ∧ decode 0x8A56#16 = .ok (.shrVx 10 5) ∧
  decode 0x9CD0#16 = .ok (.sneVxVy 12 13) ∧ decode 0xA9BC#16 = .ok (.ldI 0x9BC#12) ∧
  decode 0xB678#16 = .ok (.jpV0 0x678#12) ∧ decode 0xC1F0#16 = .ok (.rnd 1 0xF0#8) ∧
  decode 0xD125#16 = .ok (.drw 1 2 0x5#4) ∧ decode 0xE29E#16 = .ok (.skp 2) ∧ decode 0xF265#16 = .ok (.ldVxMem 2)

/-! ## The cycle engine -/

/-- 40_cycle_engine.md R120, R124-R128: a cycle that decodes `i` runs `exec i`; around it the cycle does nothing after a fault (R128),
nothing after a stall, that is an FX0A with no key pressed (R126), and otherwise one tick of both timers (R125, R127). -/
def Obligations.StepRunsDecodedInstruction : Prop :=
  ∀ (s t : State) (i : Instr), Decodes s i → exec i s = .next t →
    step s = .next (if t.fault ≠ none then t
      else if (∃ x, i = .ldVxK x) ∧ (∀ k : Fin 16, s.keys[k.val] = false) then t
      else { t with dt := BitVec.ofNat 8 (t.dt.toNat - 1), st := BitVec.ofNat 8 (t.st.toNat - 1) })

/-- 40_cycle_engine.md R120: a cycle always has an outcome, and so has every instruction: the model never stops.
That an outcome `Fault` is a next state, the one with the record latched, is the model's reading of R128 and R260 (log 7, DEDUCED).
(93_implementation_defined.md: no behaviour gets `refuse` and none gets `stuck`.) -/
def Obligations.EveryCycleAnswersNext : Prop :=
  (∀ (i : Instr) (s : State), ∃ t, exec i s = .next t) ∧ ∀ s : State, ∃ t, step s = .next t

/-- 40_cycle_engine.md R121, 60_exceptions.md R261 (the spec's decision D3): a core with a latched fault is left unchanged by any number
of cycles, and each returns the same record. -/
def Obligations.LatchedFaultStopsTheCore : Prop :=
  ∀ (s : State) (r : FaultRecord) (n : Nat), s.fault = some r →
    Host.Core.run Sys2Proof.core n s = .next s ∧ cycleReply s = some r

/-- 40_cycle_engine.md R122, 60_exceptions.md R253 (the spec's decision D12): a cycle with pc above 0xFFE takes `FetchOutOfRange`, with
no opcode in the record, and changes nothing else; at any pc up to 0xFFE the fetch succeeds. -/
def Obligations.FetchFaultsAboveFFE : Prop :=
  (∀ s : State, s.fault = none → 0xFFE < s.pc.toNat →
    step s = .next { s with fault := some ⟨.fetchOutOfRange, s.pc, none⟩ }) ∧
  (∀ s : State, s.pc.toNat ≤ 0xFFE → ∃ op, fetch s = some op)

/-- 20_memory.md R65: the fetched opcode's bits 15..8 are the byte at pc and its bits 7..0 the byte at pc + 1, in every state, so
nothing switches the byte order. -/
def Obligations.FetchIsBigEndian : Prop :=
  ∀ s : State, s.pc.toNat ≤ 0xFFE →
    ∃ op, fetch s = some op ∧ op.toNat / 256 = (s.mem.read s.pc.toNat).toNat ∧
      op.toNat % 256 = (s.mem.read (s.pc.toNat + 1)).toNat

/-- 40_cycle_engine.md R128, 60_exceptions.md R251, R260 (the spec's decision D4; the opcode is the model's reconstruction, log 8):
faults are precise. A cycle that leaves a fault in a core that had none changed the fault record only, and the record holds the pc
of the cycle and the opcode it fetched, absent exactly for the fetch's own fault. -/
def Obligations.FaultingCycleChangesOnlyFault : Prop :=
  ∀ (s t : State) (r : FaultRecord), s.fault = none → step s = .next t → t.fault = some r →
    t = { s with fault := some r } ∧ r.pc = s.pc ∧ r.op = fetch s ∧ (r.op = none ↔ r.fault = .fetchOutOfRange)

/-- 60_exceptions.md R251, R259 (the spec's decisions D3, D5, D7, D9, D11, D12, D35): the only cause of each fault a cycle can take. -/
def Obligations.EachFaultHasItsCause : Prop :=
  ∀ (s t : State) (r : FaultRecord), s.fault = none → step s = .next t → t.fault = some r →
    match r.fault with
    | .fetchOutOfRange => 0xFFE < s.pc.toNat
    | .decodeError => s.pc.toNat ≤ 0xFFE ∧ ((∀ i, ¬ Decodes s i) ∨ ∃ nnn, Decodes s (.sys nnn))
    | .stackOverflow => (∃ nnn, Decodes s (.call nnn)) ∧ s.sp.val = 16
    | .stackUnderflow => Decodes s .ret ∧ s.sp.val = 0
    | .memoryOutOfRange a =>
      ∃ n, ((∃ x y k, Decodes s (.drw x y k) ∧ n = k.toNat ∧ 0 < n) ∨ (∃ x, Decodes s (.ldBVx x) ∧ n = 3) ∨
          (∃ x, (Decodes s (.ldMemVx x) ∨ Decodes s (.ldVxMem x)) ∧ n = x.val + 1)) ∧
        0x1000 < s.idx.toNat + n ∧ a = max s.idx.toNat 0x1000
    | .drawOutOfRange x0 y0 =>
      ∃ x y n, Decodes s (.drw x y n) ∧ x0 = readV s x ∧ y0 = readV s y ∧ s.drawEdge = .fault ∧
        (n.toNat = 0 ∨ s.idx.toNat + n.toNat ≤ 0x1000) ∧ ∃ px py, lit s x y n px py ∧ (64 ≤ px ∨ 32 ≤ py)
    | .keyIndexOutOfRange k => ∃ x, (Decodes s (.skp x) ∨ Decodes s (.sknp x)) ∧ k = readV s x ∧ 15 < k.toNat

/-- 40_cycle_engine.md R127: a tick takes one from each timer on its own, floored at 0, and changes nothing else; a cycle that completes
an instruction ticks exactly once, a stalled FX0A (R126) and a faulting cycle (R128, the spec's decision D4) not at all. -/
def Obligations.TickDecrementsTimersOncePerCycle : Prop :=
  (∀ s : State, ∃ d e, tick s = { s with dt := d, st := e } ∧ d.toNat = s.dt.toNat - 1 ∧ e.toNat = s.st.toNat - 1) ∧
  (∀ (s t : State) (i : Instr), Decodes s i → exec i s = .next t → t.fault = none →
    (∀ x, i ≠ .ldVxK x) ∨ (∃ k : Fin 16, s.keys[k.val] = true) → step s = .next (tick t)) ∧
  (∀ (s : State) (x : Reg), Decodes s (.ldVxK x) → (∀ k : Fin 16, s.keys[k.val] = false) → step s = .next s) ∧
  (∀ s t : State, s.fault = none → step s = .next t → t.fault ≠ none → t.dt = s.dt ∧ t.st = s.st)

/-- 40_cycle_engine.md R126: a stall, an FX0A with no key pressed, leaves the whole state unchanged: no pc advance and no tick, and the
reply is Ok. -/
def Obligations.StallLeavesStateUnchanged : Prop :=
  ∀ (s : State) (x : Reg), Decodes s (.ldVxK x) → (∀ k : Fin 16, s.keys[k.val] = false) →
    step s = .next s ∧ cycleReply s = none

/-- 40_cycle_engine.md R131: a cycle never writes the key state; SetKeys makes it what the host wrote and changes nothing else, so an
instruction reads the most recent SetKeys. -/
def Obligations.OnlyTheHostWritesKeys : Prop :=
  (∀ s : State, ∃ t, step s = .next t ∧ t.keys = s.keys) ∧
  (∀ (k : Vector Bool 16) (s : State), hostSetKeys k s = { s with keys := k })

/-- 00_scope.md R8 (the model's own fields, log 1): no cycle changes the machine's two open choices. -/
def Obligations.OpenChoicesNeverChange : Prop :=
  ∀ s : State, ∃ t, step s = .next t ∧ t.callPush = s.callPush ∧ t.drawEdge = s.drawEdge

/-- 40_cycle_engine.md R130: the result of `Cycle(r)` is a function of the state and r alone (the environment's own draws do not
enter), and r is read only when the instruction is CXNN. -/
def Obligations.CycleReadsRandomByteOnlyForRnd : Prop :=
  (∀ (s t : State) (r q : Byte), (∀ x nn, ¬ Decodes s (.rnd x nn)) → hostCycle r s = .next t → hostCycle q s = .next t) ∧
  (∀ (s t : State) (r : Byte) (d : Nat), hostCycle r s = .next t →
    hostCycle r { s with draws := d } = .next { t with draws := d })

/-! ## Invariants -/

/-- 20_memory.md R60, R62 (the canonical form is the model's own, log 2): from any state whose memory is in the canonical form, a cycle
leaves it in that form; so do Load and every write of one byte. -/
def Obligations.MemoryStaysCanonical : Prop :=
  (∀ s : State, s.mem.wf = true → ∃ t, step s = .next t ∧ t.mem.wf = true) ∧
  (∀ (rom : List Byte) (s : State), s.mem.wf = true → (hostLoad rom s).2.mem.wf = true) ∧
  (∀ (m : Memory) (a : Nat) (w : Byte), m.wf = true → (m.write a w).wf = true)

/-- 10_state.md R26: pc never goes above 0x10FE, whichever `CallPushConvention` the machine has: an invariant of every cycle, from every
state that has it. -/
def Obligations.PcStaysBounded : Prop :=
  ∀ s : State, s.pcBounded → ∃ t, step s = .next t ∧ t.pcBounded

/-- The two invariants hold after every reset, whatever the parameters and the state before. The bound on pc is 10_state.md R26's, from
the reset values of R49; the canonical form of memory is the model's own (log 2), and no rule of the spec gives it. -/
def Obligations.InvariantsHoldAtReset : Prop :=
  (State.reset.mem.wf = true ∧ State.reset.pcBounded) ∧
  ∀ (p : ResetParams) (s : State), (hostReset p s).mem.wf = true ∧ (hostReset p s).pcBounded

/-! ## What instructions leave unchanged -/

/-- 10_state.md R23, R28: every general register an instruction does not write by the access table is unchanged, VF among them. -/
def Obligations.RegistersFollowAccessTable : Prop :=
  ∀ (i : Instr) (s : State), ∃ t, exec i s = .next t ∧ ∀ r : Reg, writesReg i r = false → readV t r = readV s r

/-- 10_state.md R33, R31: only 2NNN and 00EE touch the call stack: every other instruction leaves SP and every slot unchanged, and what
it does does not depend on them. RET changes no slot. -/
def Obligations.OnlyCallAndReturnTouchStack : Prop :=
  (∀ (i : Instr) (s : State), (∀ nnn, i ≠ .call nnn) → i ≠ .ret → ∃ t, exec i s = .next t ∧ t.sp = s.sp ∧ t.stack = s.stack ∧
    ∀ (n : Fin 17) (k : Vector Word 16),
      exec i { s with sp := n, stack := k } = .next { t with sp := n, stack := k }) ∧
  (∀ s : State, ∃ t, exec .ret s = .next t ∧ t.stack = s.stack)

/-- 10_state.md R30, R34, 60_exceptions.md R266: I is written by ANNN, FX1E, FX29, FX55 and FX65 only, DT by FX15 only, ST by FX18 only
(the tick is the engine's), and ST is read by no instruction. -/
def Obligations.IndexAndTimersWrittenOnlyByTheirOwn : Prop :=
  ∀ (i : Instr) (s : State), ∃ t, exec i s = .next t ∧ (writesIdx i = false → t.idx = s.idx) ∧
    ((∀ x, i ≠ .ldDTVx x) → t.dt = s.dt) ∧
    ((∀ x, i ≠ .ldSTVx x) → t.st = s.st ∧ ∀ b : Byte, exec i { s with st := b } = .next { t with st := b })

/-- 10_state.md R37, R39, 60_exceptions.md R267: the framebuffer and the draw flag are written by 00E0 and DXYN only; no cycle sets the
draw flag false; ClearDrawFlag sets it false and changes nothing else. -/
def Obligations.OnlyDisplayInstructionsWriteFrame : Prop :=
  (∀ (i : Instr) (s : State), i ≠ .cls → (∀ x y n, i ≠ .drw x y n) →
    ∃ t, exec i s = .next t ∧ t.fb = s.fb ∧ t.drawFlag = s.drawFlag) ∧
  (∀ s : State, s.drawFlag = true → ∃ t, step s = .next t ∧ t.drawFlag = true) ∧
  (∀ s : State, hostClearDrawFlag s = { s with drawFlag := false })

/-- 20_memory.md R68, R63: every byte of memory outside those an instruction stores to reads as before: FX33 stores to I..I+2, FX55 to
I..I+X, no other instruction stores. -/
def Obligations.MemoryOutsideStoresUnchanged : Prop :=
  ∀ (i : Instr) (s : State), ∃ t, exec i s = .next t ∧ ∀ a : Nat, storesTo i s a = false → t.mem.read a = s.mem.read a

/-- 10_state.md R25 (the fault row is the spec's decision D4, the stall row C5): the pc every instruction leaves. -/
def Obligations.PcFollowsTable : Prop :=
  ∀ (i : Instr) (s : State), s.fault = none →
    ∃ t, exec i s = .next t ∧ (t.fault ≠ none → t.pc = s.pc) ∧ (t.fault = none → t.pc = nextPc i s)

/-! ## Control flow and skips -/

/-- 41_flow.md R140, 30_encoding.md R98 (the spec's decision D5): every opcode 0NNN but 00E0 and 00EE is SYS, whose only effect is
`DecodeError`. -/
def Obligations.SysTakesDecodeError : Prop :=
  (∀ op : Word, op &&& 0xF000#16 = 0x0000#16 → op ≠ 0x00E0#16 → op ≠ 0x00EE#16 → decode op = .ok (.sys (fieldNNN op))) ∧
  ∀ (nnn : Addr12) (s : State), exec (.sys nnn) s =
    .next { s with fault := some ⟨.decodeError, s.pc, some (BitVec.ofNat 16 nnn.toNat)⟩ }

/-- 41_flow.md R142, R144 (patterns D29; no masking of the sum D14): JP NNN sets pc to NNN, JP V0, NNN to NNN + V0 as integers, at most
0x10FE; nothing else changes. -/
def Obligations.JumpsSetPc : Prop :=
  SelectsRow 0xF000#16 0x1000#16 (fun op => .jp (fieldNNN op)) ∧
  SelectsRow 0xF000#16 0xB000#16 (fun op => .jpV0 (fieldNNN op)) ∧
  ∀ (nnn : Addr12) (s : State), ∃ p q : Word,
    exec (.jp nnn) s = .next { s with pc := p } ∧ p.toNat = nnn.toNat ∧
    exec (.jpV0 nnn) s = .next { s with pc := q } ∧ q.toNat = nnn.toNat + (readV s 0).toNat ∧ q.toNat ≤ 0x10FE

/-- 40_cycle_engine.md R132 (the spec's decision D28): a cycle at a self-loop changes only DT and ST, by the tick. -/
def Obligations.SelfLoopOnlyTicks : Prop :=
  ∀ (s : State) (nnn : Addr12), Decodes s (.jp nnn) → s.pc.toNat = nnn.toNat →
    step s = .next { s with dt := BitVec.ofNat 8 (s.dt.toNat - 1), st := BitVec.ofNat 8 (s.st.toNat - 1) }

/-- 41_flow.md R143 (pattern D29; conventions D6; overflow D7): CALL pushes pc + 2 or pc by the machine's convention, adds one to SP and
goes to NNN; with 16 occupied slots it takes `StackOverflow` and changes nothing else. -/
def Obligations.CallPushesAndJumps : Prop :=
  SelectsRow 0xF000#16 0x2000#16 (fun op => .call (fieldNNN op)) ∧
  (∀ (nnn : Addr12) (s : State) (h : s.sp.val < 16), exec (.call nnn) s =
    .next { s with stack := s.stack.set s.sp.val (if s.callPush = .returnAddress then s.pc + 2#16 else s.pc)
                   sp := ⟨s.sp.val + 1, by omega⟩
                   pc := BitVec.ofNat 16 nnn.toNat }) ∧
  (∀ (nnn : Addr12) (s : State), s.sp.val = 16 → exec (.call nnn) s =
    .next { s with fault := some ⟨.stackOverflow, s.pc, some (BitVec.ofNat 16 (0x2000 + nnn.toNat))⟩ })

/-- 41_flow.md R141 (pattern D29; conventions D6; underflow D7; the slot keeps its value D8): RET takes one from SP and goes to the popped
value, or to it plus 2, by the machine's convention; with an empty stack it takes `StackUnderflow` and changes nothing else. -/
def Obligations.ReturnPopsAndJumps : Prop :=
  SelectsRow 0xFFFF#16 0x00EE#16 (fun _ => .ret) ∧
  (∀ (s : State) (h : 0 < s.sp.val), exec .ret s =
    .next { s with sp := ⟨s.sp.val - 1, by omega⟩
                   pc := if s.callPush = .returnAddress then s.stack[s.sp.val - 1] else s.stack[s.sp.val - 1] + 2#16 }) ∧
  (∀ s : State, s.sp.val = 0 → exec .ret s = .next { s with fault := some ⟨.stackUnderflow, s.pc, some 0x00EE#16⟩ })

/-- 41_flow.md R143: "Under either convention the RET of rule R141 resumes at the instruction after the CALL": a RET in any later state
with the stack the CALL left goes to the CALL's pc + 2 and gives SP back. -/
def Obligations.ReturnResumesAfterCall : Prop :=
  ∀ (nnn : Addr12) (s t u : State), s.sp.val < 16 → exec (.call nnn) s = .next t →
    u.stack = t.stack → u.sp = t.sp → u.callPush = s.callPush →
    exec .ret u = .next { u with sp := s.sp, pc := s.pc + 2#16 }

/-- 41_flow.md R145-R148 (conditions D29): the four skips by literal and by register set pc to pc + 4 when their condition holds, else to
pc + 2, and change nothing else. -/
def Obligations.SkipsTestTheirCondition : Prop :=
  SelectsRow 0xF000#16 0x3000#16 (fun op => .seVxNN (fieldX op) (fieldNN op)) ∧
  SelectsRow 0xF000#16 0x4000#16 (fun op => .sneVxNN (fieldX op) (fieldNN op)) ∧
  SelectsRow 0xF00F#16 0x5000#16 (fun op => .seVxVy (fieldX op) (fieldY op)) ∧
  SelectsRow 0xF00F#16 0x9000#16 (fun op => .sneVxVy (fieldX op) (fieldY op)) ∧
  ∀ (x y : Reg) (nn : Byte) (s : State),
    exec (.seVxNN x nn) s = .next { s with pc := if (readV s x).toNat = nn.toNat then s.pc + 4#16 else s.pc + 2#16 } ∧
    exec (.sneVxNN x nn) s = .next { s with pc := if (readV s x).toNat = nn.toNat then s.pc + 2#16 else s.pc + 4#16 } ∧
    exec (.seVxVy x y) s =
      .next { s with pc := if (readV s x).toNat = (readV s y).toNat then s.pc + 4#16 else s.pc + 2#16 } ∧
    exec (.sneVxVy x y) s =
      .next { s with pc := if (readV s x).toNat = (readV s y).toNat then s.pc + 2#16 else s.pc + 4#16 }

/-! ## Arithmetic, logic, shift and random -/

/-- 42_alu.md R161, R163-R166 (patterns D29; no flag D26): LD by literal and by register, OR, AND and XOR write V[X] and advance pc,
and nothing else: no flag, so VF is unchanged when X is not F. -/
def Obligations.LoadsAndLogicWriteOneRegister : Prop :=
  SelectsRow 0xF000#16 0x6000#16 (fun op => .ldVxNN (fieldX op) (fieldNN op)) ∧
  SelectsRow 0xF00F#16 0x8000#16 (fun op => .ldVxVy (fieldX op) (fieldY op)) ∧
  SelectsRow 0xF00F#16 0x8001#16 (fun op => .orVxVy (fieldX op) (fieldY op)) ∧
  SelectsRow 0xF00F#16 0x8002#16 (fun op => .andVxVy (fieldX op) (fieldY op)) ∧
  SelectsRow 0xF00F#16 0x8003#16 (fun op => .xorVxVy (fieldX op) (fieldY op)) ∧
  ∀ (x y : Reg) (nn : Byte) (s : State),
    exec (.ldVxNN x nn) s = .next { s with v := s.v.set x.val nn, pc := s.pc + 2#16 } ∧
    exec (.ldVxVy x y) s = .next { s with v := s.v.set x.val (readV s y), pc := s.pc + 2#16 } ∧
    exec (.orVxVy x y) s = .next { s with v := s.v.set x.val (readV s x ||| readV s y), pc := s.pc + 2#16 } ∧
    exec (.andVxVy x y) s = .next { s with v := s.v.set x.val (readV s x &&& readV s y), pc := s.pc + 2#16 } ∧
    exec (.xorVxVy x y) s = .next { s with v := s.v.set x.val (readV s x ^^^ readV s y), pc := s.pc + 2#16 }

/-- 42_alu.md R162 (pattern D29): ADD VX, NN wraps modulo 256 and sets no flag. -/
def Obligations.AddLiteralWrapsWithoutFlag : Prop :=
  SelectsRow 0xF000#16 0x7000#16 (fun op => .addVxNN (fieldX op) (fieldNN op)) ∧
  ∀ (x : Reg) (nn : Byte) (s : State), exec (.addVxNN x nn) s =
    .next { s with v := s.v.set x.val (BitVec.ofNat 8 (((readV s x).toNat + nn.toNat) % 256)), pc := s.pc + 2#16 }

/-- 42_alu.md R168: 8XY4 stores the sum modulo 256 in V[X], then VF is 1 if the sum exceeds 255, else 0; pc advances by 2 and nothing
else changes. -/
def Obligations.AddSetsCarryFlag : Prop :=
  SelectsRow 0xF00F#16 0x8004#16 (fun op => .addVxVy (fieldX op) (fieldY op)) ∧
  ∀ (x y : Reg) (s : State), exec (.addVxVy x y) s =
    .next { s with v := (s.v.set x.val (BitVec.ofNat 8 (((readV s x).toNat + (readV s y).toNat) % 256))).set 15
                     (if (readV s x).toNat + (readV s y).toNat > 255 then 1#8 else 0#8)
                   pc := s.pc + 2#16 }

/-- 42_alu.md R169, R171: 8XY5 stores (V[X] - V[Y]) mod 256 and 8XY7 (V[Y] - V[X]) mod 256 in V[X], then VF is 0 on a borrow, else 1; pc
advances by 2 and nothing else changes. -/
def Obligations.SubtractsSetNotBorrowFlag : Prop :=
  SelectsRow 0xF00F#16 0x8005#16 (fun op => .subVxVy (fieldX op) (fieldY op)) ∧
  SelectsRow 0xF00F#16 0x8007#16 (fun op => .subnVxVy (fieldX op) (fieldY op)) ∧
  ∀ (x y : Reg) (s : State),
    exec (.subVxVy x y) s =
      .next { s with v := (s.v.set x.val (BitVec.ofNat 8 (((readV s x).toNat + 256 - (readV s y).toNat) % 256))).set 15
                       (if (readV s y).toNat > (readV s x).toNat then 0#8 else 1#8)
                     pc := s.pc + 2#16 } ∧
    exec (.subnVxVy x y) s =
      .next { s with v := (s.v.set x.val (BitVec.ofNat 8 (((readV s y).toNat + 256 - (readV s x).toNat) % 256))).set 15
                       (if (readV s x).toNat > (readV s y).toNat then 0#8 else 1#8)
                     pc := s.pc + 2#16 }

/-- 42_alu.md R170, R172: 8XY6 stores V[X] / 2 in V[X], then VF is the original bit 0; 8XYE stores 2 V[X] mod 256, then VF is the original
bit 7; Y is ignored; pc advances by 2 and nothing else changes. -/
def Obligations.ShiftsSetShiftedOutBit : Prop :=
  SelectsRow 0xF00F#16 0x8006#16 (fun op => .shrVx (fieldX op) (fieldY op)) ∧
  SelectsRow 0xF00F#16 0x800E#16 (fun op => .shlVx (fieldX op) (fieldY op)) ∧
  ∀ (x y : Reg) (s : State),
    exec (.shrVx x y) s =
      .next { s with v := (s.v.set x.val (BitVec.ofNat 8 ((readV s x).toNat / 2))).set 15
                       (BitVec.ofNat 8 ((readV s x).toNat % 2))
                     pc := s.pc + 2#16 } ∧
    exec (.shlVx x y) s =
      .next { s with v := (s.v.set x.val (BitVec.ofNat 8 (2 * (readV s x).toNat % 256))).set 15
                       (BitVec.ofNat 8 ((readV s x).toNat / 128))
                     pc := s.pc + 2#16 }

/-- 42_alu.md R167: in 8XY4, 8XY5, 8XY6, 8XY7 and 8XYE the operands are read first, the result goes to V[X] and the flag to VF last. With
X = F the flag replaces the result; with Y = F and X not F the old VF is the operand. -/
def Obligations.FlagIsLastEffect : Prop :=
  ∀ (x y : Reg) (s : State),
    (∃ t, exec (.addVxVy x y) s = .next t ∧ readV t 15 = (if (readV s x).toNat + (readV s y).toNat > 255 then 1#8 else 0#8) ∧
      (x ≠ 15 → readV t x = readV s x + readV s y)) ∧
    (∃ t, exec (.subVxVy x y) s = .next t ∧ readV t 15 = (if (readV s y).toNat > (readV s x).toNat then 0#8 else 1#8) ∧
      (x ≠ 15 → readV t x = readV s x - readV s y)) ∧
    (∃ t, exec (.shrVx x y) s = .next t ∧ (readV t 15).toNat = (readV s x).toNat % 2 ∧
      (x ≠ 15 → (readV t x).toNat = (readV s x).toNat / 2)) ∧
    (∃ t, exec (.subnVxVy x y) s = .next t ∧ readV t 15 = (if (readV s x).toNat > (readV s y).toNat then 0#8 else 1#8) ∧
      (x ≠ 15 → readV t x = readV s y - readV s x)) ∧
    (∃ t, exec (.shlVx x y) s = .next t ∧ (readV t 15).toNat = (readV s x).toNat / 128 ∧
      (x ≠ 15 → (readV t x).toNat = 2 * (readV s x).toNat % 256))

/-- 42_alu.md R173: CXNN writes r AND NN to V[X] and advances pc, where r is the byte of `Cycle(r)`, whatever it is; with no byte offered
the environment's own draw takes its place (the model's form of the free draw, log 6), and one byte is used up. -/
def Obligations.RandomByteAndLiteral : Prop :=
  SelectsRow 0xF000#16 0xC000#16 (fun op => .rnd (fieldX op) (fieldNN op)) ∧
  (∀ (x : Reg) (nn r : Byte) (rest : List Byte) (s : State), s.randQueue = r :: rest → exec (.rnd x nn) s =
    .next { s with v := s.v.set x.val (r &&& nn), pc := s.pc + 2#16, randQueue := rest }) ∧
  (∀ (x : Reg) (nn : Byte) (s : State), s.randQueue = [] → exec (.rnd x nn) s =
    .next { s with v := s.v.set x.val (Config.rand s.draws &&& nn), pc := s.pc + 2#16, draws := s.draws + 1 }) ∧
  (∀ (x : Reg) (nn r : Byte) (s : State), Decodes s (.rnd x nn) →
    hostCycle r s = .next (tick { s with v := s.v.set x.val (r &&& nn), pc := s.pc + 2#16 }))

/-! ## Index register and memory transfer -/

/-- 43_index_memory.md R190: ANNN sets I to NNN and advances pc; nothing else changes. -/
def Obligations.LoadIndexSetsIndex : Prop :=
  SelectsRow 0xF000#16 0xA000#16 (fun op => .ldI (fieldNNN op)) ∧
  ∀ (nnn : Addr12) (s : State), ∃ w : Word, exec (.ldI nnn) s = .next { s with idx := w, pc := s.pc + 2#16 } ∧
    w.toNat = nnn.toNat

/-- 43_index_memory.md R191 (wrap modulo 2^16 D13; X = F D27): FX1E adds V[X] to I modulo 2^16, then VF is 1 if the exact sum exceeds
0xFFF, else 0; pc advances and nothing else changes. -/
def Obligations.AddIndexSetsOverflowFlag : Prop :=
  SelectsRow 0xF0FF#16 0xF01E#16 (fun op => .addIVx (fieldX op)) ∧
  ∀ (x : Reg) (s : State), exec (.addIVx x) s =
    .next { s with idx := BitVec.ofNat 16 ((s.idx.toNat + (readV s x).toNat) % 65536)
                   v := s.v.set 15 (if s.idx.toNat + (readV s x).toNat > 0xFFF then 1#8 else 0#8)
                   pc := s.pc + 2#16 }

/-- 43_index_memory.md R192 (no masking D15): FX29 sets I to V[X] * 5, at most 0x4FB; pc advances and nothing else changes. -/
def Obligations.GlyphAddressIsFiveTimes : Prop :=
  SelectsRow 0xF0FF#16 0xF029#16 (fun op => .ldFVx (fieldX op)) ∧
  ∀ (x : Reg) (s : State), ∃ w : Word, exec (.ldFVx x) s = .next { s with idx := w, pc := s.pc + 2#16 } ∧
    w.toNat = (readV s x).toNat * 5 ∧ w.toNat ≤ 0x4FB

/-- 43_index_memory.md R193, R197 (the check is the spec's decision D12): FX33 writes the hundreds, tens and units digits of V[X] to I,
I + 1 and I + 2, leaves every other byte and I unchanged and advances pc; where I + 2 exceeds 0xFFF it takes `MemoryOutOfRange` and
changes nothing else. -/
def Obligations.BcdStoreWritesDigits : Prop :=
  SelectsRow 0xF0FF#16 0xF033#16 (fun op => .ldBVx (fieldX op)) ∧
  (∀ (x : Reg) (s : State), s.mem.wf = true → s.idx.toNat + 2 ≤ 0xFFF →
    ∃ m : Memory, exec (.ldBVx x) s = .next { s with mem := m, pc := s.pc + 2#16 } ∧
      (m.read s.idx.toNat).toNat = (readV s x).toNat / 100 ∧
      (m.read (s.idx.toNat + 1)).toNat = (readV s x).toNat / 10 % 10 ∧
      (m.read (s.idx.toNat + 2)).toNat = (readV s x).toNat % 10 ∧
      ∀ a : Nat, a < s.idx.toNat ∨ s.idx.toNat + 2 < a → m.read a = s.mem.read a) ∧
  (∀ (x : Reg) (s : State), 0xFFF < s.idx.toNat + 2 → exec (.ldBVx x) s =
    .next { s with fault := some ⟨.memoryOutOfRange (max s.idx.toNat 0x1000), s.pc,
      some (BitVec.ofNat 16 (0xF033 + 256 * x.val))⟩ })

/-- 43_index_memory.md R194, R197 (the check is the spec's decision D12): FX55 writes V[0..X] to memory from I, leaves every other byte
unchanged, adds X + 1 to I and advances pc; where I + X exceeds 0xFFF it takes `MemoryOutOfRange` and changes nothing else. -/
def Obligations.RegisterDumpStoresRegisters : Prop :=
  SelectsRow 0xF0FF#16 0xF055#16 (fun op => .ldMemVx (fieldX op)) ∧
  (∀ (x : Reg) (s : State), s.mem.wf = true → s.idx.toNat + x.val ≤ 0xFFF →
    ∃ (m : Memory) (w : Word), exec (.ldMemVx x) s = .next { s with mem := m, idx := w, pc := s.pc + 2#16 } ∧
      w.toNat = s.idx.toNat + x.val + 1 ∧
      (∀ k : Reg, k.val ≤ x.val → m.read (s.idx.toNat + k.val) = readV s k) ∧
      ∀ a : Nat, a < s.idx.toNat ∨ s.idx.toNat + x.val < a → m.read a = s.mem.read a) ∧
  (∀ (x : Reg) (s : State), 0xFFF < s.idx.toNat + x.val → exec (.ldMemVx x) s =
    .next { s with fault := some ⟨.memoryOutOfRange (max s.idx.toNat 0x1000), s.pc,
      some (BitVec.ofNat 16 (0xF055 + 256 * x.val))⟩ })

/-- 43_index_memory.md R195, R197 (the check is the spec's decision D12): FX65 reads V[0..X] from memory from I, leaves the registers above
X unchanged, adds X + 1 to I and advances pc; where I + X exceeds 0xFFF it takes `MemoryOutOfRange` and changes nothing else. -/
def Obligations.RegisterLoadReadsRegisters : Prop :=
  SelectsRow 0xF0FF#16 0xF065#16 (fun op => .ldVxMem (fieldX op)) ∧
  (∀ (x : Reg) (s : State), s.idx.toNat + x.val ≤ 0xFFF →
    ∃ (w : Vector Byte 16) (j : Word), exec (.ldVxMem x) s = .next { s with v := w, idx := j, pc := s.pc + 2#16 } ∧
      j.toNat = s.idx.toNat + x.val + 1 ∧
      ∀ k : Reg, w[k.val] = if k.val ≤ x.val then s.mem.read (s.idx.toNat + k.val) else readV s k) ∧
  (∀ (x : Reg) (s : State), 0xFFF < s.idx.toNat + x.val → exec (.ldVxMem x) s =
    .next { s with fault := some ⟨.memoryOutOfRange (max s.idx.toNat 0x1000), s.pc,
      some (BitVec.ofNat 16 (0xF065 + 256 * x.val))⟩ })

/-- 43_index_memory.md R196 (C11): an FX65 with the same X, from the memory an FX55 left and with I set back, reads V[0..X] as they were
written, and both advance I by X + 1. -/
def Obligations.DumpThenLoadRoundTrips : Prop :=
  ∀ (x : Reg) (s t u : State), s.mem.wf = true → s.idx.toNat + x.val ≤ 0xFFF → exec (.ldMemVx x) s = .next t →
    u.mem = t.mem → u.idx = s.idx →
    ∃ w, exec (.ldVxMem x) u = .next w ∧ (∀ k : Reg, k.val ≤ x.val → readV w k = readV s k) ∧
      t.idx.toNat = s.idx.toNat + x.val + 1 ∧ w.idx.toNat = s.idx.toNat + x.val + 1

/-- 20_memory.md R73, 70_reset_and_hazards.md R291: two bytes next to each other that FX55, FX33 (hundreds and tens, tens and units) or
Load stored are the opcode of any later fetch from the first of them. -/
def Obligations.StoredBytesAreFetched : Prop :=
  (∀ (x k : Reg) (s t u : State), s.mem.wf = true → s.idx.toNat + x.val ≤ 0xFFF → exec (.ldMemVx x) s = .next t →
    (hk : k.val < x.val) → u.mem = t.mem → u.pc.toNat = s.idx.toNat + k.val →
    fetch u = some (opcodeOfBytes (readV s k) (readV s ⟨k.val + 1, by omega⟩))) ∧
  (∀ (x : Reg) (s t u : State), s.mem.wf = true → s.idx.toNat + 2 ≤ 0xFFF → exec (.ldBVx x) s = .next t →
    u.mem = t.mem →
    (u.pc.toNat = s.idx.toNat →
      fetch u = some (BitVec.ofNat 16 ((readV s x).toNat / 100 * 256 + (readV s x).toNat / 10 % 10))) ∧
    (u.pc.toNat = s.idx.toNat + 1 →
      fetch u = some (BitVec.ofNat 16 ((readV s x).toNat / 10 % 10 * 256 + (readV s x).toNat % 10)))) ∧
  (∀ (rom : List Byte) (s u : State) (k : Nat) (hk : k + 1 < rom.length), s.mem.wf = true → rom.length ≤ 3584 →
    u.mem = (hostLoad rom s).2.mem → u.pc.toNat = 0x200 + k → fetch u = some (opcodeOfBytes rom[k] rom[k + 1]))

/-! ## Display -/

/-- 44_display.md R210: CLS makes every pixel 0, sets the draw flag, advances pc and changes nothing else. -/
def Obligations.ClearScreenZeroesPixels : Prop :=
  SelectsRow 0xFFFF#16 0x00E0#16 (fun _ => .cls) ∧
  ∀ s : State, ∃ f : Frame, exec .cls s = .next { s with fb := f, drawFlag := true, pc := s.pc + 2#16 } ∧
    ∀ x y : Nat, x < 64 → y < 32 → f.pixel x y = false

/-- 44_display.md R211-R214 (edge policy D9, bit order D30, coordinates read before VF D10): a DXYN whose sprite bytes are all valid and
whose set bits all lie in the framebuffer, or any DXYN of valid bytes under `Clip`, complements exactly the pixels of the framebuffer
whose sprite bit is set, sets VF to 1 if one of them was on, else to 0, sets the draw flag, advances pc, and changes nothing else. -/
def Obligations.DrawTogglesExactlyTheSprite : Prop :=
  SelectsRow 0xF000#16 0xD000#16 (fun op => .drw (fieldX op) (fieldY op) (fieldN op)) ∧
  ∀ (x y : Reg) (n : Nibble) (s : State), n.toNat = 0 ∨ s.idx.toNat + n.toNat ≤ 0x1000 →
    (s.drawEdge = .clip ∨ ∀ px py, lit s x y n px py → px < 64 ∧ py < 32) →
    ∃ (f : Frame) (c : Bool), exec (.drw x y n) s =
        .next { s with fb := f, v := s.v.set 15 (if c then 1#8 else 0#8), drawFlag := true, pc := s.pc + 2#16 } ∧
      (c = true ↔ ∃ px py, px < 64 ∧ py < 32 ∧ lit s x y n px py ∧ s.fb.pixel px py = true) ∧
      (∀ px py, px < 64 → py < 32 → lit s x y n px py → f.pixel px py = !s.fb.pixel px py) ∧
      (∀ px py, px < 64 → py < 32 → ¬ lit s x y n px py → f.pixel px py = s.fb.pixel px py)

/-- 44_display.md R211, R212, 60_exceptions.md R254, R257, R259 (the spec's decisions D9, D12, D35): a DXYN whose sprite bytes pass 0xFFF
takes `MemoryOutOfRange`; else, under `DrawEdgePolicy.fault`, one with a set bit outside the framebuffer takes `DrawOutOfRange`; each
changes nothing but the fault record. -/
def Obligations.DrawFaultsChangeNothingElse : Prop :=
  (∀ (x y : Reg) (n : Nibble) (s : State), 0 < n.toNat → 0x1000 < s.idx.toNat + n.toNat → exec (.drw x y n) s =
    .next { s with fault := some ⟨.memoryOutOfRange (max s.idx.toNat 0x1000), s.pc,
      some (BitVec.ofNat 16 (0xD000 + 256 * x.val + 16 * y.val + n.toNat))⟩ }) ∧
  (∀ (x y : Reg) (n : Nibble) (s : State), s.idx.toNat + n.toNat ≤ 0x1000 → s.drawEdge = .fault →
    (∃ px py, lit s x y n px py ∧ (64 ≤ px ∨ 32 ≤ py)) → exec (.drw x y n) s =
    .next { s with fault := some ⟨.drawOutOfRange (readV s x) (readV s y), s.pc,
      some (BitVec.ofNat 16 (0xD000 + 256 * x.val + 16 * y.val + n.toNat))⟩ })

/-- 44_display.md R214, R211: drawing the same sprite at the same place twice, with I and the sprite bytes unchanged, restores the
framebuffer; the second draw sets VF to 1 exactly if a set bit on the screen met a pixel that was 0 before the first draw, by R211's
"VF = 1 iff at least one pixel went from 1 to 0"; where every such pixel was 0, that is R214's "iff the sprite has at least one set bit on
screen", which R211 does not give where every one was 1 (log 13); a draw onto a clear framebuffer sets VF to 0. -/
def Obligations.DrawTwiceRestoresFrame : Prop :=
  (∀ (x y : Reg) (n : Nibble) (s t u : State), s.fault = none → exec (.drw x y n) s = .next t → t.fault = none →
    u.fault = none → u.mem = s.mem → u.idx = s.idx → u.fb = t.fb → u.drawEdge = s.drawEdge →
    readV u x = readV s x → readV u y = readV s y →
    ∃ w, exec (.drw x y n) u = .next w ∧ w.fault = none ∧ w.fb = s.fb ∧ (readV w 15 = 0#8 ∨ readV w 15 = 1#8) ∧
      (readV w 15 = 1#8 ↔ ∃ px py, px < 64 ∧ py < 32 ∧ lit s x y n px py ∧ s.fb.pixel px py = false) ∧
      ((∀ px py, px < 64 → py < 32 → lit s x y n px py → s.fb.pixel px py = false) →
        (readV w 15 = 1#8 ↔ ∃ px py, px < 64 ∧ py < 32 ∧ lit s x y n px py))) ∧
  (∀ (x y : Reg) (n : Nibble) (s t : State), s.fault = none → (∀ px py, px < 64 → py < 32 → s.fb.pixel px py = false) →
    exec (.drw x y n) s = .next t → t.fault = none → readV t 15 = 0#8)

/-! ## Timers and keypad -/

/-- 45_timers_keypad.md R232, R234, R235, and what R234 derives from 40_cycle_engine.md R125, R127: FX07 reads DT before the tick of its
cycle, FX15 and FX18 write DT and ST, and the tick of the same cycle follows the write: at the end of the cycle the written timer is V[X] - 1, or 0 if V[X] is 0. -/
def Obligations.TimerInstructionsThenTick : Prop :=
  (SelectsRow 0xF0FF#16 0xF007#16 (fun op => .ldVxDT (fieldX op)) ∧
   SelectsRow 0xF0FF#16 0xF015#16 (fun op => .ldDTVx (fieldX op)) ∧
   SelectsRow 0xF0FF#16 0xF018#16 (fun op => .ldSTVx (fieldX op))) ∧
  (∀ (x : Reg) (s : State),
    exec (.ldVxDT x) s = .next { s with v := s.v.set x.val s.dt, pc := s.pc + 2#16 } ∧
    exec (.ldDTVx x) s = .next { s with dt := readV s x, pc := s.pc + 2#16 } ∧
    exec (.ldSTVx x) s = .next { s with st := readV s x, pc := s.pc + 2#16 }) ∧
  (∀ (x : Reg) (s : State), Decodes s (.ldVxDT x) →
    ∃ t, step s = .next t ∧ readV t x = s.dt ∧ t.dt.toNat = s.dt.toNat - 1 ∧ t.st.toNat = s.st.toNat - 1) ∧
  (∀ (x : Reg) (s : State), Decodes s (.ldDTVx x) →
    ∃ t, step s = .next t ∧ t.dt.toNat = (readV s x).toNat - 1 ∧ t.st.toNat = s.st.toNat - 1) ∧
  (∀ (x : Reg) (s : State), Decodes s (.ldSTVx x) →
    ∃ t, step s = .next t ∧ t.st.toNat = (readV s x).toNat - 1 ∧ t.dt.toNat = s.dt.toNat - 1)

/-- 70_reset_and_hazards.md R292: an FX15 writes n, k more cycles each complete an instruction other than FX15, and an FX07 follows: it
reads n - (k + 1), floored at 0, so the FX07 of the next cycle (k = 0) reads n - 1. The same of ST after an FX18, and of both timers over
k cycles of a self-loop. -/
def Obligations.TimerCountsDownWhileCyclesRun : Prop :=
  (∀ (x y : Reg) (s t u v : State) (k : Nat), Decodes s (.ldDTVx x) → step s = .next t →
    CompletesEach (fun i => ∀ z, i ≠ .ldDTVx z) k t u → u.dt.toNat = (readV s x).toNat - (k + 1) ∧
      (Decodes u (.ldVxDT y) → step u = .next v → (readV v y).toNat = (readV s x).toNat - (k + 1))) ∧
  (∀ (x : Reg) (s t u : State) (k : Nat), Decodes s (.ldSTVx x) → step s = .next t →
    CompletesEach (fun i => ∀ z, i ≠ .ldSTVx z) k t u → u.st.toNat = (readV s x).toNat - (k + 1)) ∧
  (∀ (s t : State) (nnn : Addr12) (k : Nat), Decodes s (.jp nnn) → s.pc.toNat = nnn.toNat →
    Host.Core.run Sys2Proof.core k s = .next t → t.dt.toNat = s.dt.toNat - k ∧ t.st.toNat = s.st.toNat - k)

/-- 45_timers_keypad.md R233: FX0A with a key pressed writes the lowest pressed key's index to V[X] and advances pc, and the tick follows;
with none pressed it changes nothing, and the cycle leaves the whole state, DT and ST with it, as it was. -/
def Obligations.AwaitKeyTakesLowestPressedKey : Prop :=
  SelectsRow 0xF0FF#16 0xF00A#16 (fun op => .ldVxK (fieldX op)) ∧
  (∀ (x : Reg) (s : State) (k : Fin 16), s.keys[k.val] = true → (∀ j : Fin 16, j < k → s.keys[j.val] = false) →
    exec (.ldVxK x) s = .next { s with v := s.v.set x.val (BitVec.ofNat 8 k.val), pc := s.pc + 2#16 }) ∧
  (∀ (x : Reg) (s : State), (∀ k : Fin 16, s.keys[k.val] = false) → exec (.ldVxK x) s = .next s) ∧
  (∀ (x : Reg) (s : State) (k : Fin 16), Decodes s (.ldVxK x) → s.keys[k.val] = true → (∀ j : Fin 16, j < k → s.keys[j.val] = false) →
    step s = .next (tick { s with v := s.v.set x.val (BitVec.ofNat 8 k.val), pc := s.pc + 2#16 })) ∧
  (∀ (x : Reg) (s : State), Decodes s (.ldVxK x) → (∀ k : Fin 16, s.keys[k.val] = false) → step s = .next s)

/-- 45_timers_keypad.md R230, R231, R236 (the key check is the spec's decision D11): EX9E skips if key V[X] is pressed, EXA1 if it is not;
with V[X] above 0xF each takes `KeyIndexOutOfRange` and changes nothing else. -/
def Obligations.KeySkipsTestKey : Prop :=
  SelectsRow 0xF0FF#16 0xE09E#16 (fun op => .skp (fieldX op)) ∧
  SelectsRow 0xF0FF#16 0xE0A1#16 (fun op => .sknp (fieldX op)) ∧
  (∀ (x : Reg) (s : State) (h : (readV s x).toNat < 16),
    exec (.skp x) s = .next { s with pc := if s.keys[(readV s x).toNat] = true then s.pc + 4#16 else s.pc + 2#16 } ∧
    exec (.sknp x) s = .next { s with pc := if s.keys[(readV s x).toNat] = true then s.pc + 2#16 else s.pc + 4#16 }) ∧
  (∀ (x : Reg) (s : State), 15 < (readV s x).toNat →
    exec (.skp x) s = .next { s with fault := some ⟨.keyIndexOutOfRange (readV s x), s.pc,
      some (BitVec.ofNat 16 (0xE09E + 256 * x.val))⟩ } ∧
    exec (.sknp x) s = .next { s with fault := some ⟨.keyIndexOutOfRange (readV s x), s.pc,
      some (BitVec.ofNat 16 (0xE0A1 + 256 * x.val))⟩ })

/-! ## Reset and load -/

/-- 10_state.md R49, 70_reset_and_hazards.md R280-R282 (the open reset values D16, D17, D18, D21 are the operation's arguments; I and SP
D19): what Reset leaves, for every parameter and every state before. -/
def Obligations.ResetEstablishesResetValues : Prop :=
  ∀ (p : ResetParams) (s : State),
    (∀ a (h : a < 80), (hostReset p s).mem.read a = p.font[a]) ∧
    (∀ a (h : a < 4016), (hostReset p s).mem.read (80 + a) = p.initMem[a]) ∧
    (∀ r : Reg, readV (hostReset p s) r = 0#8) ∧ (hostReset p s).idx = 0#16 ∧ (hostReset p s).pc = 0x200#16 ∧
    (∀ k : Fin 16, (hostReset p s).stack[k.val] = 0#16) ∧ (hostReset p s).sp = 0 ∧
    (hostReset p s).dt = 0#8 ∧ (hostReset p s).st = 0#8 ∧
    (∀ x y, (hostReset p s).fb.pixel x y = false) ∧ (hostReset p s).keys = p.keys ∧
    (hostReset p s).drawFlag = p.drawFlag ∧ (hostReset p s).fault = none

/-- 10_state.md R49, R40 (the font's bytes, the zero bytes, the released keys and the clear draw flag are the model's choices, log 2-5):
`State.reset` is the state Reset leaves with those parameters: memory reads as the font below 0x050 and as zero above. -/
def Obligations.ResetStateIsAReset : Prop :=
  ∃ p : ResetParams, hostReset p State.reset = State.reset ∧ p.font.toList = fontBytes ∧ (∀ a (h : a < 4016), p.initMem[a] = 0#8)

/-- 70_reset_and_hazards.md R284, R286: a ROM of at most 3584 bytes is copied to 0x200 and up, every other byte and the rest of the state
unchanged; a longer one gets a capacity error and the whole state is unchanged. -/
def Obligations.LoadCopiesRomOrChangesNothing : Prop :=
  (∀ (rom : List Byte) (s : State), s.mem.wf = true → rom.length ≤ 3584 →
    ∃ m : Memory, hostLoad rom s = (.ok, { s with mem := m }) ∧
      (∀ k (h : k < rom.length), m.read (0x200 + k) = rom[k]) ∧
      ∀ a : Nat, a < 0x200 ∨ 0x200 + rom.length ≤ a → m.read a = s.mem.read a) ∧
  (∀ (rom : List Byte) (s : State), 3584 < rom.length → hostLoad rom s = (.capacityError, s))
end

