-- ==== Sys2Proof/Laws/Decode.lean ====
section
/-! SUPPORT. The opcode's fields, masks, patterns and bytes as arithmetic, for proofs about decoding and encoding. -/

namespace Sys2Proof

theorem fieldFamily_toNat (op : Word) : (fieldFamily op).toNat = op.toNat / 4096 := by
  have := op.isLt
  simp only [fieldFamily, BitVec.extractLsb'_toNat, Nat.shiftRight_eq_div_pow]
  omega

theorem fieldX_val (op : Word) : (fieldX op).val = op.toNat / 256 % 16 := by
  simp [fieldX, Nat.shiftRight_eq_div_pow]

theorem fieldY_val (op : Word) : (fieldY op).val = op.toNat / 16 % 16 := by
  simp [fieldY, Nat.shiftRight_eq_div_pow]

theorem fieldN_toNat (op : Word) : (fieldN op).toNat = op.toNat % 16 := by
  simp [fieldN]

theorem fieldNN_toNat (op : Word) : (fieldNN op).toNat = op.toNat % 256 := by
  simp [fieldNN]

theorem fieldNNN_toNat (op : Word) : (fieldNNN op).toNat = op.toNat % 4096 := by
  simp [fieldNNN]

theorem fieldFamily_eq (op : Word) {k : Nat} (hk : k < 16) : fieldFamily op = BitVec.ofNat 4 k ↔ op.toNat / 4096 = k := by
  rw [← BitVec.toNat_inj, fieldFamily_toNat, BitVec.toNat_ofNat, Nat.mod_eq_of_lt (a := k) (by simpa using hk)]

theorem fieldN_eq (op : Word) {k : Nat} (hk : k < 16) : fieldN op = BitVec.ofNat 4 k ↔ op.toNat % 16 = k := by
  rw [← BitVec.toNat_inj, fieldN_toNat, BitVec.toNat_ofNat, Nat.mod_eq_of_lt (a := k) (by simpa using hk)]

theorem fieldNN_eq (op : Word) {k : Nat} (hk : k < 256) : fieldNN op = BitVec.ofNat 8 k ↔ op.toNat % 256 = k := by
  rw [← BitVec.toNat_inj, fieldNN_toNat, BitVec.toNat_ofNat, Nat.mod_eq_of_lt (a := k) (by simpa using hk)]

theorem and_F000_toNat (op : Word) : (op &&& 0xF000#16).toNat = op.toNat / 4096 * 4096 := by
  have h : op &&& 0xF000#16 = fieldFamily op ++ 0#12 := by
    apply BitVec.eq_of_getLsbD_eq
    intro i hi
    simp only [BitVec.getLsbD_and, BitVec.getLsbD_append, fieldFamily, BitVec.getLsbD_extractLsb']
    interval_cases i <;> simp
  rw [h, BitVec.toNat_append, fieldFamily_toNat, ← Nat.shiftLeft_add_eq_or_of_lt (by decide), Nat.shiftLeft_eq]
  simp

theorem and_F00F_toNat (op : Word) : (op &&& 0xF00F#16).toNat = op.toNat / 4096 * 4096 + op.toNat % 16 := by
  have h : op &&& 0xF00F#16 = fieldFamily op ++ (0#8 ++ fieldN op) := by
    apply BitVec.eq_of_getLsbD_eq
    intro i hi
    simp only [BitVec.getLsbD_and, BitVec.getLsbD_append, fieldFamily, fieldN, BitVec.getLsbD_extractLsb']
    interval_cases i <;> simp
  rw [h, BitVec.toNat_append, ← Nat.shiftLeft_add_eq_or_of_lt (0#8 ++ fieldN op).isLt, fieldFamily_toNat, BitVec.toNat_append,
    ← Nat.shiftLeft_add_eq_or_of_lt (fieldN op).isLt, fieldN_toNat, Nat.shiftLeft_eq]
  simp

theorem and_F0FF_toNat (op : Word) : (op &&& 0xF0FF#16).toNat = op.toNat / 4096 * 4096 + op.toNat % 256 := by
  have h : op &&& 0xF0FF#16 = fieldFamily op ++ (0#4 ++ fieldNN op) := by
    apply BitVec.eq_of_getLsbD_eq
    intro i hi
    simp only [BitVec.getLsbD_and, BitVec.getLsbD_append, fieldFamily, fieldNN, BitVec.getLsbD_extractLsb']
    interval_cases i <;> simp
  rw [h, BitVec.toNat_append, ← Nat.shiftLeft_add_eq_or_of_lt (0#4 ++ fieldNN op).isLt, fieldFamily_toNat, BitVec.toNat_append,
    ← Nat.shiftLeft_add_eq_or_of_lt (fieldNN op).isLt, fieldNN_toNat, Nat.shiftLeft_eq]
  simp

theorem and_FFFF (op : Word) : op &&& 0xFFFF#16 = op := BitVec.and_allOnes

theorem hexDigits_toNat {d1 d2 d3 d4 : Nat} (h1 : d1 < 16) (h2 : d2 < 16) (h3 : d3 < 16) (h4 : d4 < 16) :
    (hexDigits d1 d2 d3 d4).toNat = d1 * 4096 + d2 * 256 + d3 * 16 + d4 := by
  rw [hexDigits, BitVec.toNat_ofNat, Nat.mod_eq_of_lt (by omega)]

theorem patternNNN_toNat {d1 : Nat} (h1 : d1 < 16) (nnn : Addr12) : (patternNNN d1 nnn).toNat = d1 * 4096 + nnn.toNat := by
  have := nnn.isLt
  rw [patternNNN, BitVec.toNat_ofNat, Nat.mod_eq_of_lt (by omega)]

theorem patternXNN_toNat {d1 : Nat} (h1 : d1 < 16) (x : Reg) (nn : Byte) :
    (patternXNN d1 x nn).toNat = d1 * 4096 + x.val * 256 + nn.toNat := by
  have := nn.isLt
  have := x.isLt
  rw [patternXNN, BitVec.toNat_ofNat, Nat.mod_eq_of_lt (by omega)]

theorem highByte_toNat (op : Word) : (highByte op).toNat = op.toNat / 256 := by
  have := op.isLt
  simp only [highByte, BitVec.extractLsb'_toNat, Nat.shiftRight_eq_div_pow]
  omega

theorem lowByte_toNat (op : Word) : (lowByte op).toNat = op.toNat % 256 := by
  simp [lowByte]

theorem opcodeOfBytes_toNat (hi lo : Byte) : (opcodeOfBytes hi lo).toNat = hi.toNat * 256 + lo.toNat := by
  have := hi.isLt
  have := lo.isLt
  rw [opcodeOfBytes, BitVec.toNat_ofNat, Nat.mod_eq_of_lt (by omega)]

/-- The two bytes of an opcode make the opcode again (20_memory.md R65). -/
theorem opcodeOfBytes_bytes (op : Word) : opcodeOfBytes (highByte op) (lowByte op) = op := by
  apply BitVec.eq_of_toNat_eq
  rw [opcodeOfBytes_toNat, highByte_toNat, lowByte_toNat]
  omega

theorem highByte_opcodeOfBytes (hi lo : Byte) : highByte (opcodeOfBytes hi lo) = hi := by
  have := lo.isLt
  apply BitVec.eq_of_toNat_eq
  rw [highByte_toNat, opcodeOfBytes_toNat]
  omega

theorem lowByte_opcodeOfBytes (hi lo : Byte) : lowByte (opcodeOfBytes hi lo) = lo := by
  have := lo.isLt
  apply BitVec.eq_of_toNat_eq
  rw [lowByte_toNat, opcodeOfBytes_toNat]
  omega

/-! ## The decoder by family (30_encoding.md R95) -/

theorem decode_of_family0 {op : Word} (h : op.toNat / 4096 = 0) : decode op = .ok (decodeFamily0 op) := by
  simp [decode, (fieldFamily_eq op (k := 0) (by decide)).2 h]

theorem decode_of_family1 {op : Word} (h : op.toNat / 4096 = 1) : decode op = .ok (.jp (fieldNNN op)) := by
  simp [decode, (fieldFamily_eq op (k := 1) (by decide)).2 h]

theorem decode_of_family2 {op : Word} (h : op.toNat / 4096 = 2) : decode op = .ok (.call (fieldNNN op)) := by
  simp [decode, (fieldFamily_eq op (k := 2) (by decide)).2 h]

theorem decode_of_family3 {op : Word} (h : op.toNat / 4096 = 3) : decode op = .ok (.seVxNN (fieldX op) (fieldNN op)) := by
  simp [decode, (fieldFamily_eq op (k := 3) (by decide)).2 h]

theorem decode_of_family4 {op : Word} (h : op.toNat / 4096 = 4) : decode op = .ok (.sneVxNN (fieldX op) (fieldNN op)) := by
  simp [decode, (fieldFamily_eq op (k := 4) (by decide)).2 h]

theorem decode_of_family5 {op : Word} (h : op.toNat / 4096 = 5) : decode op = if op.toNat % 16 = 0 then .ok (.seVxVy (fieldX op) (fieldY op)) else .error .family5 := by
  simp [decode, (fieldFamily_eq op (k := 5) (by decide)).2 h, fieldN_eq op (k := 0) (by decide)]

theorem decode_of_family6 {op : Word} (h : op.toNat / 4096 = 6) : decode op = .ok (.ldVxNN (fieldX op) (fieldNN op)) := by
  simp [decode, (fieldFamily_eq op (k := 6) (by decide)).2 h]

theorem decode_of_family7 {op : Word} (h : op.toNat / 4096 = 7) : decode op = .ok (.addVxNN (fieldX op) (fieldNN op)) := by
  simp [decode, (fieldFamily_eq op (k := 7) (by decide)).2 h]

theorem decode_of_family8 {op : Word} (h : op.toNat / 4096 = 8) : decode op = decodeFamily8 op := by
  simp [decode, (fieldFamily_eq op (k := 8) (by decide)).2 h]

theorem decode_of_family9 {op : Word} (h : op.toNat / 4096 = 9) : decode op = if op.toNat % 16 = 0 then .ok (.sneVxVy (fieldX op) (fieldY op)) else .error .family9 := by
  simp [decode, (fieldFamily_eq op (k := 9) (by decide)).2 h, fieldN_eq op (k := 0) (by decide)]

theorem decode_of_family10 {op : Word} (h : op.toNat / 4096 = 10) : decode op = .ok (.ldI (fieldNNN op)) := by
  simp [decode, (fieldFamily_eq op (k := 10) (by decide)).2 h]

theorem decode_of_family11 {op : Word} (h : op.toNat / 4096 = 11) : decode op = .ok (.jpV0 (fieldNNN op)) := by
  simp [decode, (fieldFamily_eq op (k := 11) (by decide)).2 h]

theorem decode_of_family12 {op : Word} (h : op.toNat / 4096 = 12) : decode op = .ok (.rnd (fieldX op) (fieldNN op)) := by
  simp [decode, (fieldFamily_eq op (k := 12) (by decide)).2 h]

theorem decode_of_family13 {op : Word} (h : op.toNat / 4096 = 13) : decode op = .ok (.drw (fieldX op) (fieldY op) (fieldN op)) := by
  simp [decode, (fieldFamily_eq op (k := 13) (by decide)).2 h]

theorem decode_of_family14 {op : Word} (h : op.toNat / 4096 = 14) : decode op = decodeFamilyE op := by
  simp [decode, (fieldFamily_eq op (k := 14) (by decide)).2 h]

theorem decode_of_family15 {op : Word} (h : op.toNat / 4096 = 15) : decode op = decodeFamilyF op := by
  simp [decode, (fieldFamily_eq op (k := 15) (by decide)).2 h]

theorem decodeFamily8_eq (op : Word) : decodeFamily8 op =
    if op.toNat % 16 = 0 then .ok (.ldVxVy (fieldX op) (fieldY op))
    else if op.toNat % 16 = 1 then .ok (.orVxVy (fieldX op) (fieldY op))
    else if op.toNat % 16 = 2 then .ok (.andVxVy (fieldX op) (fieldY op))
    else if op.toNat % 16 = 3 then .ok (.xorVxVy (fieldX op) (fieldY op))
    else if op.toNat % 16 = 4 then .ok (.addVxVy (fieldX op) (fieldY op))
    else if op.toNat % 16 = 5 then .ok (.subVxVy (fieldX op) (fieldY op))
    else if op.toNat % 16 = 6 then .ok (.shrVx (fieldX op) (fieldY op))
    else if op.toNat % 16 = 7 then .ok (.subnVxVy (fieldX op) (fieldY op))
    else if op.toNat % 16 = 14 then .ok (.shlVx (fieldX op) (fieldY op))
    else .error .family8 := by
  simp only [decodeFamily8, fieldN_eq op (k := 0) (by decide), fieldN_eq op (k := 1) (by decide), fieldN_eq op (k := 2) (by decide), fieldN_eq op (k := 3) (by decide), fieldN_eq op (k := 4) (by decide), fieldN_eq op (k := 5) (by decide), fieldN_eq op (k := 6) (by decide), fieldN_eq op (k := 7) (by decide), fieldN_eq op (k := 14) (by decide)]

theorem decodeFamilyE_eq (op : Word) : decodeFamilyE op =
    if op.toNat % 256 = 158 then .ok (.skp (fieldX op))
    else if op.toNat % 256 = 161 then .ok (.sknp (fieldX op))
    else .error .familyE := by
  simp only [decodeFamilyE, fieldNN_eq op (k := 158) (by decide), fieldNN_eq op (k := 161) (by decide)]

theorem decodeFamilyF_eq (op : Word) : decodeFamilyF op =
    if op.toNat % 256 = 7 then .ok (.ldVxDT (fieldX op))
    else if op.toNat % 256 = 10 then .ok (.ldVxK (fieldX op))
    else if op.toNat % 256 = 21 then .ok (.ldDTVx (fieldX op))
    else if op.toNat % 256 = 24 then .ok (.ldSTVx (fieldX op))
    else if op.toNat % 256 = 30 then .ok (.addIVx (fieldX op))
    else if op.toNat % 256 = 41 then .ok (.ldFVx (fieldX op))
    else if op.toNat % 256 = 51 then .ok (.ldBVx (fieldX op))
    else if op.toNat % 256 = 85 then .ok (.ldMemVx (fieldX op))
    else if op.toNat % 256 = 101 then .ok (.ldVxMem (fieldX op))
    else .error .familyF := by
  simp only [decodeFamilyF, fieldNN_eq op (k := 7) (by decide), fieldNN_eq op (k := 10) (by decide), fieldNN_eq op (k := 21) (by decide), fieldNN_eq op (k := 24) (by decide), fieldNN_eq op (k := 30) (by decide), fieldNN_eq op (k := 41) (by decide), fieldNN_eq op (k := 51) (by decide), fieldNN_eq op (k := 85) (by decide), fieldNN_eq op (k := 101) (by decide)]

end Sys2Proof
end

