-- ==== Sys2Proof/Laws/Memory.lean ====
section
/-! SUPPORT. What the memory operations do: reads after writes, and that every operation keeps the canonical form. -/

namespace Sys2Proof.Machine

theorem Memory.wf_nil : Memory.wf [] = true := rfl

/-- The canonical form of a nonempty memory: its first cell is valid, is no default, and lies below the rest. -/
theorem Memory.wf_cons (b : Nat) (u : Byte) (m : Memory) :
    Memory.wf ((b, u) :: m) = true ↔
      (∀ c ∈ m, b < c.1) ∧ b < Config.memSize ∧ u ≠ unlistedByte b ∧ Memory.wf m = true := by
  simp only [Memory.wf, List.pairwise_cons, List.all_cons, Bool.and_eq_true, decide_eq_true_eq, bne_iff_ne, ne_eq]
  tauto

/-- An address below every listed one reads as unlisted. -/
theorem Memory.read_of_lt {m : Memory} {a : Nat} (h : ∀ c ∈ m, a < c.1) : m.read a = unlistedByte a := by
  induction m with
  | nil => rfl
  | cons c m ih =>
    have hc := h c (List.mem_cons_self ..)
    rw [Memory.read, if_neg (by omega)]
    exact ih fun d hd => h d (List.mem_cons_of_mem _ hd)

/-- The addresses `put` lists are the old ones and the written one. -/
theorem Memory.mem_put {m : Memory} {a : Nat} {w : Byte} {c : Host.Cell} (h : c ∈ m.put a w) : c.1 = a ∨ c ∈ m := by
  induction m with
  | nil => simp only [Memory.put] at h; split at h <;> simp_all
  | cons d m ih =>
    obtain ⟨b, u⟩ := d
    simp only [Memory.put] at h
    split at h
    · rcases List.mem_cons.1 h with rfl | h
      · exact .inr (List.mem_cons_self ..)
      · exact (ih h).imp id (List.mem_cons_of_mem _)
    · split at h <;> split at h <;> simp only [List.mem_cons] at h ⊢ <;>
        first | tauto | (rcases h with rfl | h <;> tauto)

theorem Memory.put_wf {m : Memory} {a : Nat} (w : Byte) (ha : a < Config.memSize) (h : m.wf = true) :
    (m.put a w).wf = true := by
  induction m with
  | nil =>
    rw [Memory.put]
    split
    · rfl
    · next hw => exact (Memory.wf_cons a w []).2 ⟨by simp, ha, hw, rfl⟩
  | cons c m ih =>
    obtain ⟨b, u⟩ := c
    have hb := (Memory.wf_cons b u m).1 h
    rw [Memory.put]
    split
    · next hlt =>
      refine (Memory.wf_cons b u _).2 ⟨fun c hc => ?_, hb.2.1, hb.2.2.1, ih hb.2.2.2⟩
      rcases Memory.mem_put hc with hc | hc
      · omega
      · exact hb.1 c hc
    · split
      · next heq =>
        subst heq
        split
        · exact hb.2.2.2
        · next hw => exact (Memory.wf_cons b w m).2 ⟨hb.1, ha, hw, hb.2.2.2⟩
      · split
        · exact h
        · next hw =>
          refine (Memory.wf_cons a w _).2 ⟨fun c hc => ?_, ha, hw, h⟩
          rcases List.mem_cons.1 hc with rfl | hc
          · dsimp only; omega
          · have := hb.1 c hc; omega

/-- Every memory operation keeps the canonical form: one write. -/
theorem Memory.write_wf {m : Memory} (a : Nat) (w : Byte) (h : m.wf = true) : (m.write a w).wf = true := by
  unfold Memory.write
  split
  · next ha => exact Memory.put_wf w ha h
  · exact h

/-- Every memory operation keeps the canonical form: writes at ascending addresses. -/
theorem Memory.writeList_wf {m : Memory} (a : Nat) (ws : List Byte) (h : m.wf = true) : (m.writeList a ws).wf = true := by
  induction ws generalizing m a with
  | nil => exact h
  | cons w ws ih => exact ih (a + 1) (Memory.write_wf a w h)

theorem Memory.read_put_other (m : Memory) {a c : Nat} (w : Byte) (h : c ≠ a) : (m.put a w).read c = m.read c := by
  induction m with
  | nil => rw [Memory.put]; split <;> simp [Memory.read, h]
  | cons d m ih =>
    obtain ⟨b, u⟩ := d
    rw [Memory.put]
    split
    · simp only [Memory.read, ih]
    · split
      · next heq => subst heq; split <;> simp [Memory.read, h]
      · split <;> simp [Memory.read, h]

theorem Memory.read_put_same {m : Memory} {a : Nat} (w : Byte) (h : m.wf = true) : (m.put a w).read a = w := by
  induction m with
  | nil => rw [Memory.put]; split <;> simp_all [Memory.read]
  | cons c m ih =>
    obtain ⟨b, u⟩ := c
    have hb := (Memory.wf_cons b u m).1 h
    rw [Memory.put]
    split
    · next hlt => rw [Memory.read, if_neg (by omega)]; exact ih hb.2.2.2
    · split
      · next heq =>
        subst heq
        split
        · next hw => rw [Memory.read_of_lt hb.1, hw]
        · simp [Memory.read]
      · split
        · next hw =>
          rw [hw]
          refine Memory.read_of_lt fun c hc => ?_
          rcases List.mem_cons.1 hc with rfl | hc
          · dsimp only; omega
          · have := hb.1 c hc; omega
        · simp [Memory.read]

/-- One write changes one byte, a valid address's (20_memory.md R63). -/
theorem Memory.read_write {m : Memory} (a c : Nat) (w : Byte) (h : m.wf = true) :
    (m.write a w).read c = if c = a ∧ a < Config.memSize then w else m.read c := by
  unfold Memory.write
  split
  · next ha =>
    split
    · next hc => rw [hc.1]; exact Memory.read_put_same w h
    · next hc => exact Memory.read_put_other m w fun h => hc ⟨h, ha⟩
  · next ha => rw [if_neg fun h => ha h.2]

/-- A write leaves every other byte alone, in any memory. -/
theorem Memory.read_write_other (m : Memory) {a c : Nat} (w : Byte) (h : c ≠ a) : (m.write a w).read c = m.read c := by
  unfold Memory.write
  split
  · exact Memory.read_put_other m w h
  · rfl

/-- Writes at ascending addresses leave every byte outside them alone, in any memory. -/
theorem Memory.read_writeList_other (m : Memory) {a c : Nat} (ws : List Byte) (h : c < a ∨ a + ws.length ≤ c) :
    (m.writeList a ws).read c = m.read c := by
  induction ws generalizing m a with
  | nil => rfl
  | cons w ws ih =>
    rw [List.length_cons] at h
    rw [Memory.writeList, ih _ (by omega), Memory.read_write_other m w (by omega)]

/-- Writes at ascending valid addresses read back. -/
theorem Memory.read_writeList_at {m : Memory} {a k : Nat} (ws : List Byte) (h : m.wf = true)
    (ha : a + ws.length ≤ Config.memSize) (hk : k < ws.length) : (m.writeList a ws).read (a + k) = ws[k] := by
  induction ws generalizing m a k with
  | nil => simp at hk
  | cons w ws ih =>
    rw [List.length_cons] at ha hk
    rw [Memory.writeList]
    cases k with
    | zero =>
      rw [Memory.read_writeList_other _ _ (by omega), Memory.read_write _ _ _ h, if_pos (by omega)]
      rfl
    | succ k =>
      rw [show a + (k + 1) = a + 1 + k by omega, ih (Memory.write_wf a w h) (by omega) (by omega)]
      rfl

/-- Writing at ascending addresses: two runs in a row are one. -/
theorem Memory.writeList_append (m : Memory) (a : Nat) (us ws : List Byte) :
    m.writeList a (us ++ ws) = (m.writeList a us).writeList (a + us.length) ws := by
  induction us generalizing m a with
  | nil => rfl
  | cons u us ih =>
    rw [List.cons_append, Memory.writeList, ih, Memory.writeList, List.length_cons]
    congr 1
    omega

theorem Memory.length_readList (m : Memory) (a n : Nat) : (m.readList a n).length = n := by simp [Memory.readList]

theorem Memory.getElem_readList (m : Memory) (a n k : Nat) (h : k < (m.readList a n).length) :
    (m.readList a n)[k] = m.read (a + k) := by
  simp [Memory.readList]

end Sys2Proof.Machine
end

