-- ==== Sys2Proof/Laws/State.lean ====
section
/-! SUPPORT. Beside State: one lemma per field per update, so that no later proof unfolds a record update. -/

namespace Sys2Proof.Machine

variable (s : State)

@[simp] theorem writeV_mem (x : Reg) (b : Byte) : (writeV x b s).mem = s.mem := rfl
@[simp] theorem writeV_v (x : Reg) (b : Byte) : (writeV x b s).v = s.v.set x.val b := rfl
@[simp] theorem writeV_idx (x : Reg) (b : Byte) : (writeV x b s).idx = s.idx := rfl
@[simp] theorem writeV_pc (x : Reg) (b : Byte) : (writeV x b s).pc = s.pc := rfl
@[simp] theorem writeV_stack (x : Reg) (b : Byte) : (writeV x b s).stack = s.stack := rfl
@[simp] theorem writeV_sp (x : Reg) (b : Byte) : (writeV x b s).sp = s.sp := rfl
@[simp] theorem writeV_dt (x : Reg) (b : Byte) : (writeV x b s).dt = s.dt := rfl
@[simp] theorem writeV_st (x : Reg) (b : Byte) : (writeV x b s).st = s.st := rfl
@[simp] theorem writeV_fb (x : Reg) (b : Byte) : (writeV x b s).fb = s.fb := rfl
@[simp] theorem writeV_keys (x : Reg) (b : Byte) : (writeV x b s).keys = s.keys := rfl
@[simp] theorem writeV_drawFlag (x : Reg) (b : Byte) : (writeV x b s).drawFlag = s.drawFlag := rfl
@[simp] theorem writeV_fault (x : Reg) (b : Byte) : (writeV x b s).fault = s.fault := rfl
@[simp] theorem writeV_callPush (x : Reg) (b : Byte) : (writeV x b s).callPush = s.callPush := rfl
@[simp] theorem writeV_drawEdge (x : Reg) (b : Byte) : (writeV x b s).drawEdge = s.drawEdge := rfl
@[simp] theorem writeV_randQueue (x : Reg) (b : Byte) : (writeV x b s).randQueue = s.randQueue := rfl
@[simp] theorem writeV_draws (x : Reg) (b : Byte) : (writeV x b s).draws = s.draws := rfl

@[simp] theorem setFlag_mem (c : Bool) : (setFlag c s).mem = s.mem := rfl
@[simp] theorem setFlag_v (c : Bool) : (setFlag c s).v = s.v.set 15 (flagByte c) := rfl
@[simp] theorem setFlag_idx (c : Bool) : (setFlag c s).idx = s.idx := rfl
@[simp] theorem setFlag_pc (c : Bool) : (setFlag c s).pc = s.pc := rfl
@[simp] theorem setFlag_stack (c : Bool) : (setFlag c s).stack = s.stack := rfl
@[simp] theorem setFlag_sp (c : Bool) : (setFlag c s).sp = s.sp := rfl
@[simp] theorem setFlag_dt (c : Bool) : (setFlag c s).dt = s.dt := rfl
@[simp] theorem setFlag_st (c : Bool) : (setFlag c s).st = s.st := rfl
@[simp] theorem setFlag_fb (c : Bool) : (setFlag c s).fb = s.fb := rfl
@[simp] theorem setFlag_keys (c : Bool) : (setFlag c s).keys = s.keys := rfl
@[simp] theorem setFlag_drawFlag (c : Bool) : (setFlag c s).drawFlag = s.drawFlag := rfl
@[simp] theorem setFlag_fault (c : Bool) : (setFlag c s).fault = s.fault := rfl
@[simp] theorem setFlag_callPush (c : Bool) : (setFlag c s).callPush = s.callPush := rfl
@[simp] theorem setFlag_drawEdge (c : Bool) : (setFlag c s).drawEdge = s.drawEdge := rfl
@[simp] theorem setFlag_randQueue (c : Bool) : (setFlag c s).randQueue = s.randQueue := rfl
@[simp] theorem setFlag_draws (c : Bool) : (setFlag c s).draws = s.draws := rfl

@[simp] theorem raise_mem (f : Fault) (op : Option Word) : (raise f op s).mem = s.mem := rfl
@[simp] theorem raise_v (f : Fault) (op : Option Word) : (raise f op s).v = s.v := rfl
@[simp] theorem raise_idx (f : Fault) (op : Option Word) : (raise f op s).idx = s.idx := rfl
@[simp] theorem raise_pc (f : Fault) (op : Option Word) : (raise f op s).pc = s.pc := rfl
@[simp] theorem raise_stack (f : Fault) (op : Option Word) : (raise f op s).stack = s.stack := rfl
@[simp] theorem raise_sp (f : Fault) (op : Option Word) : (raise f op s).sp = s.sp := rfl
@[simp] theorem raise_dt (f : Fault) (op : Option Word) : (raise f op s).dt = s.dt := rfl
@[simp] theorem raise_st (f : Fault) (op : Option Word) : (raise f op s).st = s.st := rfl
@[simp] theorem raise_fb (f : Fault) (op : Option Word) : (raise f op s).fb = s.fb := rfl
@[simp] theorem raise_keys (f : Fault) (op : Option Word) : (raise f op s).keys = s.keys := rfl
@[simp] theorem raise_drawFlag (f : Fault) (op : Option Word) : (raise f op s).drawFlag = s.drawFlag := rfl
@[simp] theorem raise_fault (f : Fault) (op : Option Word) : (raise f op s).fault = some ⟨f, s.pc, op⟩ := rfl
@[simp] theorem raise_callPush (f : Fault) (op : Option Word) : (raise f op s).callPush = s.callPush := rfl
@[simp] theorem raise_drawEdge (f : Fault) (op : Option Word) : (raise f op s).drawEdge = s.drawEdge := rfl
@[simp] theorem raise_randQueue (f : Fault) (op : Option Word) : (raise f op s).randQueue = s.randQueue := rfl
@[simp] theorem raise_draws (f : Fault) (op : Option Word) : (raise f op s).draws = s.draws := rfl

@[simp] theorem raiseIn_mem (f : Fault) (i : Instr) : (raiseIn f i s).mem = s.mem := rfl
@[simp] theorem raiseIn_v (f : Fault) (i : Instr) : (raiseIn f i s).v = s.v := rfl
@[simp] theorem raiseIn_idx (f : Fault) (i : Instr) : (raiseIn f i s).idx = s.idx := rfl
@[simp] theorem raiseIn_pc (f : Fault) (i : Instr) : (raiseIn f i s).pc = s.pc := rfl
@[simp] theorem raiseIn_stack (f : Fault) (i : Instr) : (raiseIn f i s).stack = s.stack := rfl
@[simp] theorem raiseIn_sp (f : Fault) (i : Instr) : (raiseIn f i s).sp = s.sp := rfl
@[simp] theorem raiseIn_dt (f : Fault) (i : Instr) : (raiseIn f i s).dt = s.dt := rfl
@[simp] theorem raiseIn_st (f : Fault) (i : Instr) : (raiseIn f i s).st = s.st := rfl
@[simp] theorem raiseIn_fb (f : Fault) (i : Instr) : (raiseIn f i s).fb = s.fb := rfl
@[simp] theorem raiseIn_keys (f : Fault) (i : Instr) : (raiseIn f i s).keys = s.keys := rfl
@[simp] theorem raiseIn_drawFlag (f : Fault) (i : Instr) : (raiseIn f i s).drawFlag = s.drawFlag := rfl
@[simp] theorem raiseIn_fault (f : Fault) (i : Instr) : (raiseIn f i s).fault = some ⟨f, s.pc, some (encode i)⟩ := rfl
@[simp] theorem raiseIn_callPush (f : Fault) (i : Instr) : (raiseIn f i s).callPush = s.callPush := rfl
@[simp] theorem raiseIn_drawEdge (f : Fault) (i : Instr) : (raiseIn f i s).drawEdge = s.drawEdge := rfl
@[simp] theorem raiseIn_randQueue (f : Fault) (i : Instr) : (raiseIn f i s).randQueue = s.randQueue := rfl
@[simp] theorem raiseIn_draws (f : Fault) (i : Instr) : (raiseIn f i s).draws = s.draws := rfl

@[simp] theorem advance_mem : (advance s).mem = s.mem := rfl
@[simp] theorem advance_v : (advance s).v = s.v := rfl
@[simp] theorem advance_idx : (advance s).idx = s.idx := rfl
@[simp] theorem advance_pc : (advance s).pc = s.pc + 2#16 := rfl
@[simp] theorem advance_stack : (advance s).stack = s.stack := rfl
@[simp] theorem advance_sp : (advance s).sp = s.sp := rfl
@[simp] theorem advance_dt : (advance s).dt = s.dt := rfl
@[simp] theorem advance_st : (advance s).st = s.st := rfl
@[simp] theorem advance_fb : (advance s).fb = s.fb := rfl
@[simp] theorem advance_keys : (advance s).keys = s.keys := rfl
@[simp] theorem advance_drawFlag : (advance s).drawFlag = s.drawFlag := rfl
@[simp] theorem advance_fault : (advance s).fault = s.fault := rfl
@[simp] theorem advance_callPush : (advance s).callPush = s.callPush := rfl
@[simp] theorem advance_drawEdge : (advance s).drawEdge = s.drawEdge := rfl
@[simp] theorem advance_randQueue : (advance s).randQueue = s.randQueue := rfl
@[simp] theorem advance_draws : (advance s).draws = s.draws := rfl

@[simp] theorem skipIf_mem (c : Bool) : (skipIf c s).mem = s.mem := rfl
@[simp] theorem skipIf_v (c : Bool) : (skipIf c s).v = s.v := rfl
@[simp] theorem skipIf_idx (c : Bool) : (skipIf c s).idx = s.idx := rfl
@[simp] theorem skipIf_pc (c : Bool) : (skipIf c s).pc = if c then s.pc + 4#16 else s.pc + 2#16 := rfl
@[simp] theorem skipIf_stack (c : Bool) : (skipIf c s).stack = s.stack := rfl
@[simp] theorem skipIf_sp (c : Bool) : (skipIf c s).sp = s.sp := rfl
@[simp] theorem skipIf_dt (c : Bool) : (skipIf c s).dt = s.dt := rfl
@[simp] theorem skipIf_st (c : Bool) : (skipIf c s).st = s.st := rfl
@[simp] theorem skipIf_fb (c : Bool) : (skipIf c s).fb = s.fb := rfl
@[simp] theorem skipIf_keys (c : Bool) : (skipIf c s).keys = s.keys := rfl
@[simp] theorem skipIf_drawFlag (c : Bool) : (skipIf c s).drawFlag = s.drawFlag := rfl
@[simp] theorem skipIf_fault (c : Bool) : (skipIf c s).fault = s.fault := rfl
@[simp] theorem skipIf_callPush (c : Bool) : (skipIf c s).callPush = s.callPush := rfl
@[simp] theorem skipIf_drawEdge (c : Bool) : (skipIf c s).drawEdge = s.drawEdge := rfl
@[simp] theorem skipIf_randQueue (c : Bool) : (skipIf c s).randQueue = s.randQueue := rfl
@[simp] theorem skipIf_draws (c : Bool) : (skipIf c s).draws = s.draws := rfl

@[simp] theorem jumpTo_mem (t : Word) : (jumpTo t s).mem = s.mem := rfl
@[simp] theorem jumpTo_v (t : Word) : (jumpTo t s).v = s.v := rfl
@[simp] theorem jumpTo_idx (t : Word) : (jumpTo t s).idx = s.idx := rfl
@[simp] theorem jumpTo_pc (t : Word) : (jumpTo t s).pc = t := rfl
@[simp] theorem jumpTo_stack (t : Word) : (jumpTo t s).stack = s.stack := rfl
@[simp] theorem jumpTo_sp (t : Word) : (jumpTo t s).sp = s.sp := rfl
@[simp] theorem jumpTo_dt (t : Word) : (jumpTo t s).dt = s.dt := rfl
@[simp] theorem jumpTo_st (t : Word) : (jumpTo t s).st = s.st := rfl
@[simp] theorem jumpTo_fb (t : Word) : (jumpTo t s).fb = s.fb := rfl
@[simp] theorem jumpTo_keys (t : Word) : (jumpTo t s).keys = s.keys := rfl
@[simp] theorem jumpTo_drawFlag (t : Word) : (jumpTo t s).drawFlag = s.drawFlag := rfl
@[simp] theorem jumpTo_fault (t : Word) : (jumpTo t s).fault = s.fault := rfl
@[simp] theorem jumpTo_callPush (t : Word) : (jumpTo t s).callPush = s.callPush := rfl
@[simp] theorem jumpTo_drawEdge (t : Word) : (jumpTo t s).drawEdge = s.drawEdge := rfl
@[simp] theorem jumpTo_randQueue (t : Word) : (jumpTo t s).randQueue = s.randQueue := rfl
@[simp] theorem jumpTo_draws (t : Word) : (jumpTo t s).draws = s.draws := rfl

@[simp] theorem setIdx_mem (w : Word) : (setIdx w s).mem = s.mem := rfl
@[simp] theorem setIdx_v (w : Word) : (setIdx w s).v = s.v := rfl
@[simp] theorem setIdx_idx (w : Word) : (setIdx w s).idx = w := rfl
@[simp] theorem setIdx_pc (w : Word) : (setIdx w s).pc = s.pc := rfl
@[simp] theorem setIdx_stack (w : Word) : (setIdx w s).stack = s.stack := rfl
@[simp] theorem setIdx_sp (w : Word) : (setIdx w s).sp = s.sp := rfl
@[simp] theorem setIdx_dt (w : Word) : (setIdx w s).dt = s.dt := rfl
@[simp] theorem setIdx_st (w : Word) : (setIdx w s).st = s.st := rfl
@[simp] theorem setIdx_fb (w : Word) : (setIdx w s).fb = s.fb := rfl
@[simp] theorem setIdx_keys (w : Word) : (setIdx w s).keys = s.keys := rfl
@[simp] theorem setIdx_drawFlag (w : Word) : (setIdx w s).drawFlag = s.drawFlag := rfl
@[simp] theorem setIdx_fault (w : Word) : (setIdx w s).fault = s.fault := rfl
@[simp] theorem setIdx_callPush (w : Word) : (setIdx w s).callPush = s.callPush := rfl
@[simp] theorem setIdx_drawEdge (w : Word) : (setIdx w s).drawEdge = s.drawEdge := rfl
@[simp] theorem setIdx_randQueue (w : Word) : (setIdx w s).randQueue = s.randQueue := rfl
@[simp] theorem setIdx_draws (w : Word) : (setIdx w s).draws = s.draws := rfl

@[simp] theorem bumpIdx_mem (x : Reg) : (bumpIdx x s).mem = s.mem := rfl
@[simp] theorem bumpIdx_v (x : Reg) : (bumpIdx x s).v = s.v := rfl
@[simp] theorem bumpIdx_idx (x : Reg) : (bumpIdx x s).idx = s.idx + BitVec.ofNat 16 (x.val + 1) := rfl
@[simp] theorem bumpIdx_pc (x : Reg) : (bumpIdx x s).pc = s.pc := rfl
@[simp] theorem bumpIdx_stack (x : Reg) : (bumpIdx x s).stack = s.stack := rfl
@[simp] theorem bumpIdx_sp (x : Reg) : (bumpIdx x s).sp = s.sp := rfl
@[simp] theorem bumpIdx_dt (x : Reg) : (bumpIdx x s).dt = s.dt := rfl
@[simp] theorem bumpIdx_st (x : Reg) : (bumpIdx x s).st = s.st := rfl
@[simp] theorem bumpIdx_fb (x : Reg) : (bumpIdx x s).fb = s.fb := rfl
@[simp] theorem bumpIdx_keys (x : Reg) : (bumpIdx x s).keys = s.keys := rfl
@[simp] theorem bumpIdx_drawFlag (x : Reg) : (bumpIdx x s).drawFlag = s.drawFlag := rfl
@[simp] theorem bumpIdx_fault (x : Reg) : (bumpIdx x s).fault = s.fault := rfl
@[simp] theorem bumpIdx_callPush (x : Reg) : (bumpIdx x s).callPush = s.callPush := rfl
@[simp] theorem bumpIdx_drawEdge (x : Reg) : (bumpIdx x s).drawEdge = s.drawEdge := rfl
@[simp] theorem bumpIdx_randQueue (x : Reg) : (bumpIdx x s).randQueue = s.randQueue := rfl
@[simp] theorem bumpIdx_draws (x : Reg) : (bumpIdx x s).draws = s.draws := rfl

@[simp] theorem loadRegistersTo_mem (x : Reg) : (loadRegistersTo x s).mem = s.mem := rfl
@[simp] theorem loadRegistersTo_v (x : Reg) : (loadRegistersTo x s).v = s.v.mapIdx fun i b => if i ≤ x.val then s.mem.read (s.idx.toNat + i) else b := rfl
@[simp] theorem loadRegistersTo_idx (x : Reg) : (loadRegistersTo x s).idx = s.idx := rfl
@[simp] theorem loadRegistersTo_pc (x : Reg) : (loadRegistersTo x s).pc = s.pc := rfl
@[simp] theorem loadRegistersTo_stack (x : Reg) : (loadRegistersTo x s).stack = s.stack := rfl
@[simp] theorem loadRegistersTo_sp (x : Reg) : (loadRegistersTo x s).sp = s.sp := rfl
@[simp] theorem loadRegistersTo_dt (x : Reg) : (loadRegistersTo x s).dt = s.dt := rfl
@[simp] theorem loadRegistersTo_st (x : Reg) : (loadRegistersTo x s).st = s.st := rfl
@[simp] theorem loadRegistersTo_fb (x : Reg) : (loadRegistersTo x s).fb = s.fb := rfl
@[simp] theorem loadRegistersTo_keys (x : Reg) : (loadRegistersTo x s).keys = s.keys := rfl
@[simp] theorem loadRegistersTo_drawFlag (x : Reg) : (loadRegistersTo x s).drawFlag = s.drawFlag := rfl
@[simp] theorem loadRegistersTo_fault (x : Reg) : (loadRegistersTo x s).fault = s.fault := rfl
@[simp] theorem loadRegistersTo_callPush (x : Reg) : (loadRegistersTo x s).callPush = s.callPush := rfl
@[simp] theorem loadRegistersTo_drawEdge (x : Reg) : (loadRegistersTo x s).drawEdge = s.drawEdge := rfl
@[simp] theorem loadRegistersTo_randQueue (x : Reg) : (loadRegistersTo x s).randQueue = s.randQueue := rfl
@[simp] theorem loadRegistersTo_draws (x : Reg) : (loadRegistersTo x s).draws = s.draws := rfl

@[simp] theorem drawOn_mem (p : List (Nat × Nat)) : (drawOn p s).mem = s.mem := rfl
@[simp] theorem drawOn_v (p : List (Nat × Nat)) : (drawOn p s).v = s.v.set 15 (flagByte (collides s.fb (p.filter onScreen))) := rfl
@[simp] theorem drawOn_idx (p : List (Nat × Nat)) : (drawOn p s).idx = s.idx := rfl
@[simp] theorem drawOn_pc (p : List (Nat × Nat)) : (drawOn p s).pc = s.pc := rfl
@[simp] theorem drawOn_stack (p : List (Nat × Nat)) : (drawOn p s).stack = s.stack := rfl
@[simp] theorem drawOn_sp (p : List (Nat × Nat)) : (drawOn p s).sp = s.sp := rfl
@[simp] theorem drawOn_dt (p : List (Nat × Nat)) : (drawOn p s).dt = s.dt := rfl
@[simp] theorem drawOn_st (p : List (Nat × Nat)) : (drawOn p s).st = s.st := rfl
@[simp] theorem drawOn_fb (p : List (Nat × Nat)) : (drawOn p s).fb = (p.filter onScreen).foldl Frame.toggle s.fb := rfl
@[simp] theorem drawOn_keys (p : List (Nat × Nat)) : (drawOn p s).keys = s.keys := rfl
@[simp] theorem drawOn_drawFlag (p : List (Nat × Nat)) : (drawOn p s).drawFlag = true := rfl
@[simp] theorem drawOn_fault (p : List (Nat × Nat)) : (drawOn p s).fault = s.fault := rfl
@[simp] theorem drawOn_callPush (p : List (Nat × Nat)) : (drawOn p s).callPush = s.callPush := rfl
@[simp] theorem drawOn_drawEdge (p : List (Nat × Nat)) : (drawOn p s).drawEdge = s.drawEdge := rfl
@[simp] theorem drawOn_randQueue (p : List (Nat × Nat)) : (drawOn p s).randQueue = s.randQueue := rfl
@[simp] theorem drawOn_draws (p : List (Nat × Nat)) : (drawOn p s).draws = s.draws := rfl

@[simp] theorem tick_mem : (tick s).mem = s.mem := rfl
@[simp] theorem tick_v : (tick s).v = s.v := rfl
@[simp] theorem tick_idx : (tick s).idx = s.idx := rfl
@[simp] theorem tick_pc : (tick s).pc = s.pc := rfl
@[simp] theorem tick_stack : (tick s).stack = s.stack := rfl
@[simp] theorem tick_sp : (tick s).sp = s.sp := rfl
@[simp] theorem tick_dt : (tick s).dt = tickTimer s.dt := rfl
@[simp] theorem tick_st : (tick s).st = tickTimer s.st := rfl
@[simp] theorem tick_fb : (tick s).fb = s.fb := rfl
@[simp] theorem tick_keys : (tick s).keys = s.keys := rfl
@[simp] theorem tick_drawFlag : (tick s).drawFlag = s.drawFlag := rfl
@[simp] theorem tick_fault : (tick s).fault = s.fault := rfl
@[simp] theorem tick_callPush : (tick s).callPush = s.callPush := rfl
@[simp] theorem tick_drawEdge : (tick s).drawEdge = s.drawEdge := rfl
@[simp] theorem tick_randQueue : (tick s).randQueue = s.randQueue := rfl
@[simp] theorem tick_draws : (tick s).draws = s.draws := rfl

/-- Taking the environment's byte changes the environment only. -/
theorem takeRandom_snd (s : State) :
    (takeRandom s).2 = { s with randQueue := (takeRandom s).2.randQueue, draws := (takeRandom s).2.draws } := by
  unfold takeRandom
  split <;> rfl

@[simp] theorem takeRandom_mem : (takeRandom s).2.mem = s.mem := by rw [takeRandom_snd]
@[simp] theorem takeRandom_v : (takeRandom s).2.v = s.v := by rw [takeRandom_snd]
@[simp] theorem takeRandom_idx : (takeRandom s).2.idx = s.idx := by rw [takeRandom_snd]
@[simp] theorem takeRandom_pc : (takeRandom s).2.pc = s.pc := by rw [takeRandom_snd]
@[simp] theorem takeRandom_stack : (takeRandom s).2.stack = s.stack := by rw [takeRandom_snd]
@[simp] theorem takeRandom_sp : (takeRandom s).2.sp = s.sp := by rw [takeRandom_snd]
@[simp] theorem takeRandom_dt : (takeRandom s).2.dt = s.dt := by rw [takeRandom_snd]
@[simp] theorem takeRandom_st : (takeRandom s).2.st = s.st := by rw [takeRandom_snd]
@[simp] theorem takeRandom_fb : (takeRandom s).2.fb = s.fb := by rw [takeRandom_snd]
@[simp] theorem takeRandom_keys : (takeRandom s).2.keys = s.keys := by rw [takeRandom_snd]
@[simp] theorem takeRandom_drawFlag : (takeRandom s).2.drawFlag = s.drawFlag := by rw [takeRandom_snd]
@[simp] theorem takeRandom_fault : (takeRandom s).2.fault = s.fault := by rw [takeRandom_snd]
@[simp] theorem takeRandom_callPush : (takeRandom s).2.callPush = s.callPush := by rw [takeRandom_snd]
@[simp] theorem takeRandom_drawEdge : (takeRandom s).2.drawEdge = s.drawEdge := by rw [takeRandom_snd]

@[simp] theorem readV_writeV_same (x : Reg) (b : Byte) : readV (writeV x b s) x = b := by simp [readV]

theorem readV_writeV_other {x r : Reg} (b : Byte) (h : r ≠ x) : readV (writeV x b s) r = readV s r := by
  have : x.val ≠ r.val := fun e => h (Fin.ext e.symm)
  simp [readV, this]

end Sys2Proof.Machine
end

