-- ==== Sys2Proof/Laws/Ops.lean ====
section
/-! SUPPORT. One lemma per shared operation that says everything it can do. -/

namespace Sys2Proof.Machine

/-! ## Ranges, keys, stack, fetch, tick -/

theorem rangeFault_eq_none {lo n : Nat} : rangeFault lo n = none ↔ n = 0 ∨ lo + n ≤ 4096 := by
  simp only [rangeFault, Config.memSize]
  split <;> simp_all

theorem rangeFault_eq_some {lo n a : Nat} :
    rangeFault lo n = some a ↔ n ≠ 0 ∧ 4096 < lo + n ∧ a = max lo 4096 := by
  simp only [rangeFault, Config.memSize]
  split
  · simp; omega
  · simp; omega

theorem keyIndex_eq_some {b : Byte} {k : Fin 16} : keyIndex b = some k ↔ b.toNat = k.val := by
  have := k.isLt
  simp only [keyIndex]
  split
  · simp [Fin.ext_iff]
  · simp; omega

theorem keyIndex_eq_none {b : Byte} : keyIndex b = none ↔ 15 < b.toNat := by
  simp only [keyIndex]
  split <;> simp <;> omega

/-- A push that succeeds fills the slot SP points at and adds one to SP; nothing else changes (10_state.md R32). -/
theorem push_eq_some {w : Word} {s t : State} (h : push w s = some t) :
    ∃ hs : s.sp.val < 16, t = { s with stack := s.stack.set s.sp.val w, sp := ⟨s.sp.val + 1, by omega⟩ } := by
  simp only [push] at h
  split at h
  · next hs => exact ⟨hs, (Option.some.inj h).symm⟩
  · cases h

theorem push_eq_none {w : Word} {s : State} : push w s = none ↔ s.sp.val = 16 := by
  have := s.sp.isLt
  simp only [push]
  split <;> simp <;> omega

/-- A pop that succeeds takes one from SP and reads the slot below; nothing else changes (10_state.md R32). -/
theorem pop_eq_some {s t : State} {w : Word} (h : pop s = some (w, t)) :
    ∃ hs : 0 < s.sp.val, w = s.stack[s.sp.val - 1] ∧ t = { s with sp := ⟨s.sp.val - 1, by omega⟩ } := by
  simp only [pop] at h
  split at h
  · next hs =>
    cases h
    exact ⟨hs, rfl, rfl⟩
  · cases h

theorem pop_eq_none {s : State} : pop s = none ↔ s.sp.val = 0 := by
  simp only [pop]
  split <;> simp <;> omega

theorem fetch_eq_some {s : State} {op : Word} :
    fetch s = some op ↔
      s.pc.toNat ≤ 0xFFE ∧ op = opcodeOfBytes (s.mem.read s.pc.toNat) (s.mem.read (s.pc.toNat + 1)) := by
  simp only [fetch]
  split
  · next h => simp [h, eq_comm]
  · next h => simp [h]

theorem fetch_eq_none {s : State} : fetch s = none ↔ 0xFFE < s.pc.toNat := by
  simp only [fetch]
  split <;> simp <;> omega

theorem tickTimer_toNat (t : Byte) : (tickTimer t).toNat = t.toNat - 1 := by
  have := t.isLt
  simp only [tickTimer]
  split
  · rw [BitVec.toNat_sub]
    simp only [BitVec.toNat_ofNat]
    omega
  · omega

/-- The pressed key with the lowest index (45_timers_keypad.md R233). -/
theorem lowestKey_eq_some {s : State} {k : Fin 16} :
    lowestKey s = some k ↔ s.keys[k.val] = true ∧ ∀ j : Fin 16, j < k → s.keys[j.val] = false := by
  have hs : (List.finRange 16).Pairwise (· < ·) := by decide
  constructor
  · intro h
    refine ⟨by simpa using List.find?_some h, fun j hj => ?_⟩
    obtain ⟨as, bs, hl, hall⟩ := (List.find?_eq_some_iff_append.1 h).2
    have hjm : j ∈ as ++ k :: bs := hl ▸ List.mem_finRange j
    rw [hl] at hs
    rcases List.mem_append.1 hjm with hm | hm
    · simpa using hall j hm
    · rcases List.mem_cons.1 hm with rfl | hm
      · exact absurd hj (lt_irrefl _)
      · have := (List.pairwise_append.1 hs).2.1
        exact absurd hj (not_lt.2 (le_of_lt ((List.pairwise_cons.1 this).1 j hm)))
  · rintro ⟨hk, hlow⟩
    cases hf : lowestKey s with
    | none =>
      have := List.find?_eq_none.1 hf k (List.mem_finRange k)
      simp [hk] at this
    | some m =>
      have hm : s.keys[m.val] = true := by simpa using List.find?_some hf
      rcases lt_trichotomy m k with h | h | h
      · simp [hlow m h] at hm
      · rw [h]
      · obtain ⟨as, bs, hl, hall⟩ := (List.find?_eq_some_iff_append.1 hf).2
        have hkm : k ∈ as ++ m :: bs := hl ▸ List.mem_finRange k
        rw [hl] at hs
        rcases List.mem_append.1 hkm with hx | hx
        · have := hall k hx
          simp [hk] at this
        · rcases List.mem_cons.1 hx with rfl | hx
          · rfl
          · have := (List.pairwise_append.1 hs).2.1
            exact absurd h (not_lt.2 (le_of_lt ((List.pairwise_cons.1 this).1 k hx)))

theorem lowestKey_eq_none {s : State} : lowestKey s = none ↔ ∀ k : Fin 16, s.keys[k.val] = false := by
  simp [lowestKey, List.find?_eq_none]

/-! ## The framebuffer and the sprite -/

theorem Frame.pixel_clear (x y : Nat) : Frame.clear.pixel x y = false := by
  simp only [Frame.pixel, Frame.clear]
  split <;> simp

/-- Two framebuffers with the same pixels are the same. -/
theorem Frame.ext {f g : Frame} (h : ∀ x y, x < 64 → y < 32 → f.pixel x y = g.pixel x y) : f = g := by
  refine Vector.ext fun x hx => Vector.ext fun y hy => ?_
  have := h x y hx hy
  simpa [Frame.pixel, hx, hy] using this

/-- A toggle complements its pixel, if it is on the screen, and no other (44_display.md R211). -/
theorem Frame.pixel_toggle (f : Frame) (p : Nat × Nat) (x y : Nat) :
    (f.toggle p).pixel x y = (f.pixel x y ^^ (decide (p = (x, y)) && onScreen p)) := by
  obtain ⟨a, b⟩ := p
  by_cases hp : a < 64 ∧ b < 32
  · by_cases hq : x < 64 ∧ y < 32
    · by_cases hx : a = x
      · by_cases hy : b = y
        · subst hx hy
          simp [Frame.toggle, Frame.pixel, hp, onScreen]
        · subst hx
          simp [Frame.toggle, Frame.pixel, hp, hq, onScreen, hy]
      · simp [Frame.toggle, Frame.pixel, hp, hq, onScreen, hx]
    · have : (a, b) ≠ (x, y) := by rintro ⟨⟩; exact hq hp
      simp [Frame.pixel, hq, this]
  · have : onScreen (a, b) = false := by simp [onScreen]; omega
    simp [Frame.toggle, hp, this]

/-- Toggling distinct on-screen pixels complements exactly those (44_display.md R214). -/
theorem Frame.pixel_foldl_toggle (f : Frame) {q : List (Nat × Nat)} (hn : q.Nodup) (hq : ∀ p ∈ q, onScreen p = true)
    (x y : Nat) : (q.foldl Frame.toggle f).pixel x y = (f.pixel x y ^^ decide ((x, y) ∈ q)) := by
  induction q generalizing f with
  | nil => simp
  | cons p q ih =>
    have hp := hq p (List.mem_cons_self ..)
    rw [List.foldl_cons, ih _ (List.nodup_cons.1 hn).2 fun r hr => hq r (List.mem_cons_of_mem _ hr), Frame.pixel_toggle, hp]
    by_cases he : p = (x, y)
    · subst he
      simp [(List.nodup_cons.1 hn).1]
    · simp [he, Ne.symm he]

theorem mem_spriteRow {x0 y0 : Nat} {b : Byte} {x y : Nat} :
    (x, y) ∈ spriteRow x0 y0 b ↔ y = y0 ∧ x0 ≤ x ∧ x < x0 + 8 ∧ b.getLsbD (7 - (x - x0)) = true := by
  simp only [spriteRow, List.mem_map, List.mem_filter, List.mem_range, Prod.mk.injEq]
  constructor
  · rintro ⟨c, ⟨hc, hb⟩, rfl, rfl⟩
    exact ⟨rfl, by omega, by omega, by simpa using hb⟩
  · rintro ⟨rfl, h1, h2, h3⟩
    exact ⟨x - x0, ⟨by omega, h3⟩, by omega, rfl⟩

/-- The set P of DXYN: bit 7 - c of row r is the pixel (x0 + c, y0 + r) (44_display.md R211, R213). -/
theorem mem_spritePixels {x0 y0 : Nat} {bs : List Byte} {x y : Nat} :
    (x, y) ∈ spritePixels x0 y0 bs ↔
      x0 ≤ x ∧ x < x0 + 8 ∧ y0 ≤ y ∧ ∃ h : y - y0 < bs.length, bs[y - y0].getLsbD (7 - (x - x0)) = true := by
  induction bs generalizing y0 with
  | nil => simp [spritePixels]
  | cons b bs ih =>
    rw [spritePixels, List.mem_append, mem_spriteRow, ih]
    constructor
    · rintro (⟨rfl, h1, h2, h3⟩ | ⟨h1, h2, h3, h4, h5⟩)
      · exact ⟨h1, h2, le_refl _, by simp, by simpa using h3⟩
      · refine ⟨h1, h2, by omega, by simp only [List.length_cons]; omega, ?_⟩
        have e : y - y0 = y - (y0 + 1) + 1 := by omega
        simp only [e, List.getElem_cons_succ]
        exact h5
    · rintro ⟨h1, h2, h3, h4, h5⟩
      by_cases hy : y = y0
      · subst hy
        exact .inl ⟨rfl, h1, h2, by simpa using h5⟩
      · right
        rw [List.length_cons] at h4
        have e : y - y0 = y - (y0 + 1) + 1 := by omega
        refine ⟨h1, h2, by omega, by omega, ?_⟩
        simp only [e, List.getElem_cons_succ] at h5
        exact h5

theorem nodup_spriteRow (x0 y : Nat) (b : Byte) : (spriteRow x0 y b).Nodup := by
  refine List.Nodup.map (fun c d h => ?_) (List.Nodup.filter _ List.nodup_range)
  have := (Prod.mk.injEq ..).mp h
  omega

/-- The pixels of one draw are distinct (44_display.md R211). -/
theorem nodup_spritePixels (x0 y0 : Nat) (bs : List Byte) : (spritePixels x0 y0 bs).Nodup := by
  induction bs generalizing y0 with
  | nil => exact List.nodup_nil
  | cons b bs ih =>
    refine List.nodup_append.2 ⟨nodup_spriteRow x0 y0 b, ih _, ?_⟩
    rintro ⟨x, y⟩ hp ⟨x', y'⟩ hq he
    obtain ⟨rfl, rfl⟩ := Prod.mk.inj he
    have h1 := (mem_spriteRow.1 hp).1
    have h2 := (mem_spritePixels.1 hq).2.2.1
    omega

/-! ## The step -/

/-- Everything a step can do: nothing when a fault is latched, a fault of the fetch, a fault of the decoder, or the end of the
cycle that executes the decoded instruction (40_cycle_engine.md R120). -/
theorem step_cases {s t : State} (h : step s = .next t) :
    (s.fault ≠ none ∧ t = s) ∨
    (s.fault = none ∧ fetch s = none ∧ t = raise .fetchOutOfRange none s) ∨
    (∃ op r, s.fault = none ∧ fetch s = some op ∧ decode op = .error r ∧ t = raise .decodeError (some op) s) ∨
    (∃ op i u, s.fault = none ∧ fetch s = some op ∧ decode op = .ok i ∧ exec i s = .next u ∧ t = endCycle i s u) := by
  unfold step at h
  split at h
  · next r hf =>
    cases h
    exact .inl ⟨by simp [hf], rfl⟩
  · next hf =>
    split at h
    · next hn =>
      cases h
      exact .inr (.inl ⟨hf, hn, rfl⟩)
    · next op ho =>
      split at h
      · next r hr =>
        cases h
        exact .inr (.inr (.inl ⟨op, r, hf, ho, hr, rfl⟩))
      · next i hi =>
        split at h
        · next u hu =>
          cases h
          exact .inr (.inr (.inr ⟨op, i, u, hf, ho, hi, hu, rfl⟩))
        · cases h
        · cases h

/-- What the end of a cycle leaves: the executed state, or it with both timers ticked (40_cycle_engine.md R125-R128). -/
theorem endCycle_cases (i : Instr) (s u : State) :
    (endCycle i s u = u ∧ (u.fault ≠ none ∨ stalls i s = true)) ∨
    (endCycle i s u = tick u ∧ u.fault = none ∧ stalls i s = false) := by
  unfold endCycle
  cases hf : u.fault <;> cases hs : stalls i s <;> simp

end Sys2Proof.Machine
end

