-- ==== Sys2Proof/Laws/Cycle.lean ====
section
/-! SUPPORT. The terms of Safety.lean in the form proofs use: what it is for a cycle to decode an instruction, a stall, a tick, a
row of the opcode map, the pixels of a sprite, the stored registers. -/

namespace Sys2Proof.Machine

theorem decodes_iff (s : State) (i : Instr) :
    Decodes s i ↔ s.fault = none ∧ ∃ op, fetch s = some op ∧ decode op = .ok i := by
  simp only [Decodes, fetch_eq_some]
  constructor
  · rintro ⟨h1, h2, h3⟩
    exact ⟨h1, _, ⟨h2, rfl⟩, h3⟩
  · rintro ⟨h1, _, ⟨h2, rfl⟩, h3⟩
    exact ⟨h1, h2, h3⟩

theorem stalls_iff (i : Instr) (s : State) :
    stalls i s = true ↔ (∃ x, i = .ldVxK x) ∧ ∀ k : Fin 16, s.keys[k.val] = false := by
  cases i <;> simp [stalls]
  rw [← lowestKey_eq_none]

/-- Each timer is one less, floored at 0 (40_cycle_engine.md R127). -/
theorem tick_eq (t : State) :
    tick t = { t with dt := BitVec.ofNat 8 (t.dt.toNat - 1), st := BitVec.ofNat 8 (t.st.toNat - 1) } := by
  have h : ∀ b : Byte, tickTimer b = BitVec.ofNat 8 (b.toNat - 1) := fun b => by
    have := b.isLt
    apply BitVec.eq_of_toNat_eq
    rw [tickTimer_toNat, BitVec.toNat_ofNat, Nat.mod_eq_of_lt (by omega)]
  simp only [tick, h]

/-- What a completed cycle does: it executes the decoded instruction, which leaves no fault, and ticks (40_cycle_engine.md R125). -/
theorem completes_cases {s t : State} {i : Instr} (h : Completes s i t) :
    ∃ u, exec i s = .next u ∧ u.fault = none ∧ t = tick u := by
  obtain ⟨hd, hs, hf, hk⟩ := h
  obtain ⟨h0, op, ho, hi⟩ := (decodes_iff s i).1 hd
  have hst : ¬ stalls i s = true := by
    rw [stalls_iff]
    rintro ⟨⟨x, hx⟩, hn⟩
    rcases hk with hk | ⟨k, hk⟩
    · exact hk x hx
    · simp [hn k] at hk
  rcases step_cases hs with ⟨h1, _⟩ | ⟨_, h1, _⟩ | ⟨op', r, _, h1, h2, _⟩ | ⟨op', j, u, _, h1, h2, h3, rfl⟩
  · exact absurd h0 h1
  · rw [ho] at h1
    cases h1
  · rw [ho] at h1
    cases h1
    rw [hi] at h2
    cases h2
  · rw [ho] at h1
    cases h1
    rw [hi] at h2
    cases h2
    rcases endCycle_cases i s u with ⟨he, h4 | h4⟩ | ⟨he, h4, _⟩
    · rw [he] at hf
      exact absurd hf h4
    · exact absurd h4 hst
    · exact ⟨u, h3, h4, he⟩

/-- A run of completed cycles by its last cycle, for inductions that follow the run forwards. -/
theorem completesEach_succ {p : Instr → Prop} {n : Nat} {s t : State} :
    CompletesEach p (n + 1) s t ↔ ∃ i u, p i ∧ CompletesEach p n s u ∧ Completes u i t := by
  induction n generalizing s with
  | zero =>
    constructor
    · rintro ⟨i, u, hp, hc, rfl⟩
      exact ⟨i, s, hp, rfl, hc⟩
    · rintro ⟨i, u, hp, rfl, hc⟩
      exact ⟨i, t, hp, hc, rfl⟩
  | succ n ih =>
    constructor
    · rintro ⟨i, u, hp, hc, hr⟩
      obtain ⟨j, w, hq, hr, hd⟩ := ih.1 hr
      exact ⟨j, w, hq, ⟨i, u, hp, hc, hr⟩, hd⟩
    · rintro ⟨j, w, hq, ⟨i, u, hp, hc, hr⟩, hd⟩
      exact ⟨i, u, hp, hc, ih.2 ⟨j, w, hq, hr, hd⟩⟩

/-- A row of the opcode map that fixes the first digit, k. -/
theorem selectsRow_F000 {k : Nat} {fixed : Word} {mk : Word → Instr} (hf : fixed.toNat = k * 4096)
    (hd : ∀ op : Word, op.toNat / 4096 = k → decode op = .ok (mk op)) : SelectsRow 0xF000#16 fixed mk := fun op h => by
  have e := congrArg BitVec.toNat h
  rw [and_F000_toNat] at e
  exact hd op (by omega)

/-- A row of the opcode map that fixes the first digit, k, and the last. -/
theorem selectsRow_F00F {k : Nat} {fixed : Word} {mk : Word → Instr} (hf : fixed.toNat / 16 * 16 = k * 4096)
    (hd : ∀ op : Word, op.toNat / 4096 = k → op.toNat % 16 = fixed.toNat % 16 → decode op = .ok (mk op)) :
    SelectsRow 0xF00F#16 fixed mk := fun op h => by
  have e := congrArg BitVec.toNat h
  rw [and_F00F_toNat] at e
  exact hd op (by omega) (by omega)

/-- A row of the opcode map that fixes the first digit, k, and the last two. -/
theorem selectsRow_F0FF {k : Nat} {fixed : Word} {mk : Word → Instr} (hf : fixed.toNat / 256 * 256 = k * 4096)
    (hd : ∀ op : Word, op.toNat / 4096 = k → op.toNat % 256 = fixed.toNat % 256 → decode op = .ok (mk op)) :
    SelectsRow 0xF0FF#16 fixed mk := fun op h => by
  have e := congrArg BitVec.toNat h
  rw [and_F0FF_toNat] at e
  exact hd op (by omega) (by omega)

theorem length_registersTo (s : State) (x : Reg) : (registersTo s x).length = x.val + 1 := by
  have := x.isLt
  simp [registersTo]

theorem getElem_registersTo (s : State) (x : Reg) (k : Nat) (h : k < (registersTo s x).length) :
    (registersTo s x)[k] = readV s ⟨k, by have := x.isLt; rw [length_registersTo] at h; omega⟩ := by
  simp [registersTo, readV]

/-- The set P of a draw is the set of its lit pixels (44_display.md R211). -/
theorem mem_drawPixels (s : State) (x y : Reg) (n : Nibble) (px py : Nat) :
    (px, py) ∈ drawPixels x y n s ↔ lit s x y n px py := by
  simp only [drawPixels, mem_spritePixels, lit, Memory.length_readList]
  constructor
  · rintro ⟨h1, h2, h3, h4, h5⟩
    rw [Memory.getElem_readList] at h5
    exact ⟨h1, h2, h3, by omega, h5⟩
  · rintro ⟨h1, h2, h3, h4, h5⟩
    refine ⟨h1, h2, h3, by omega, ?_⟩
    rw [Memory.getElem_readList]
    exact h5

theorem drawFaults_iff (s : State) (p : List (Nat × Nat)) :
    drawFaults p s = true ↔ s.drawEdge = .fault ∧ ∃ px py, (px, py) ∈ p ∧ (64 ≤ px ∨ 32 ≤ py) := by
  simp only [drawFaults, Bool.and_eq_true, decide_eq_true_eq, List.any_eq_true, Prod.exists]
  refine and_congr_right fun _ => exists_congr fun a => exists_congr fun b => and_congr_right fun _ => ?_
  simp [onScreen]

end Sys2Proof.Machine
end

