-- ==== Sys2Proof/Laws/PerInstr.lean ====
section
/-! SUPPORT. The statement made per instruction: the word of a well-formed instruction carries the fixed bits of its own row of the
opcode map (spec 30_encoding.md R96). One lemma per constructor. -/

namespace Sys2Proof.Laws.RowMatches

/-- The word of `i` has the mask and match of its row (30_encoding.md R96). -/
def Statement (i : Instr) : Prop := i.wf = true → encode i &&& (opcodeRow i).1 = (opcodeRow i).2

theorem of_nnn {d : Nat} (hd : d < 16) (nnn : Addr12) : patternNNN d nnn &&& 0xF000#16 = BitVec.ofNat 16 (d * 4096) := by
  have := nnn.isLt
  apply BitVec.eq_of_toNat_eq
  rw [and_F000_toNat, patternNNN_toNat hd, BitVec.toNat_ofNat]
  omega

theorem of_xnn {d : Nat} (hd : d < 16) (x : Reg) (nn : Byte) : patternXNN d x nn &&& 0xF000#16 = BitVec.ofNat 16 (d * 4096) := by
  have := x.isLt
  have := nn.isLt
  apply BitVec.eq_of_toNat_eq
  rw [and_F000_toNat, patternXNN_toNat hd, BitVec.toNat_ofNat]
  omega

theorem of_x {d : Nat} (hd : d < 16) (x : Reg) (nn : Byte) :
    patternXNN d x nn &&& 0xF0FF#16 = BitVec.ofNat 16 (d * 4096 + nn.toNat) := by
  have := x.isLt
  have := nn.isLt
  apply BitVec.eq_of_toNat_eq
  rw [and_F0FF_toNat, patternXNN_toNat hd, BitVec.toNat_ofNat]
  omega

theorem of_xy {d n : Nat} (hd : d < 16) (hn : n < 16) (x y : Reg) :
    hexDigits d x.val y.val n &&& 0xF00F#16 = BitVec.ofNat 16 (d * 4096 + n) := by
  have := x.isLt
  have := y.isLt
  apply BitVec.eq_of_toNat_eq
  rw [and_F00F_toNat, hexDigits_toNat hd x.isLt y.isLt hn, BitVec.toNat_ofNat]
  omega

theorem of_xyn {d : Nat} (hd : d < 16) (x y : Reg) (n : Nibble) :
    hexDigits d x.val y.val n.toNat &&& 0xF000#16 = BitVec.ofNat 16 (d * 4096) := by
  have := x.isLt
  have := y.isLt
  have := n.isLt
  apply BitVec.eq_of_toNat_eq
  rw [and_F000_toNat, hexDigits_toNat hd x.isLt y.isLt n.isLt, BitVec.toNat_ofNat]
  omega

theorem sys (nnn : Addr12) : Statement (.sys nnn) := fun _ => of_nnn (by decide) nnn

theorem cls : Statement .cls := fun _ => rfl

theorem ret : Statement .ret := fun _ => rfl

theorem jp (nnn : Addr12) : Statement (.jp nnn) := fun _ => of_nnn (by decide) nnn

theorem call (nnn : Addr12) : Statement (.call nnn) := fun _ => of_nnn (by decide) nnn

theorem seVxNN (x : Reg) (nn : Byte) : Statement (.seVxNN x nn) := fun _ => of_xnn (by decide) x nn

theorem sneVxNN (x : Reg) (nn : Byte) : Statement (.sneVxNN x nn) := fun _ => of_xnn (by decide) x nn

theorem seVxVy (x y : Reg) : Statement (.seVxVy x y) := fun _ => of_xy (by decide) (by decide) x y

theorem ldVxNN (x : Reg) (nn : Byte) : Statement (.ldVxNN x nn) := fun _ => of_xnn (by decide) x nn

theorem addVxNN (x : Reg) (nn : Byte) : Statement (.addVxNN x nn) := fun _ => of_xnn (by decide) x nn

theorem ldVxVy (x y : Reg) : Statement (.ldVxVy x y) := fun _ => of_xy (by decide) (by decide) x y

theorem orVxVy (x y : Reg) : Statement (.orVxVy x y) := fun _ => of_xy (by decide) (by decide) x y

theorem andVxVy (x y : Reg) : Statement (.andVxVy x y) := fun _ => of_xy (by decide) (by decide) x y

theorem xorVxVy (x y : Reg) : Statement (.xorVxVy x y) := fun _ => of_xy (by decide) (by decide) x y

theorem addVxVy (x y : Reg) : Statement (.addVxVy x y) := fun _ => of_xy (by decide) (by decide) x y

theorem subVxVy (x y : Reg) : Statement (.subVxVy x y) := fun _ => of_xy (by decide) (by decide) x y

theorem shrVx (x y : Reg) : Statement (.shrVx x y) := fun _ => of_xy (by decide) (by decide) x y

theorem subnVxVy (x y : Reg) : Statement (.subnVxVy x y) := fun _ => of_xy (by decide) (by decide) x y

theorem shlVx (x y : Reg) : Statement (.shlVx x y) := fun _ => of_xy (by decide) (by decide) x y

theorem sneVxVy (x y : Reg) : Statement (.sneVxVy x y) := fun _ => of_xy (by decide) (by decide) x y

theorem ldI (nnn : Addr12) : Statement (.ldI nnn) := fun _ => of_nnn (by decide) nnn

theorem jpV0 (nnn : Addr12) : Statement (.jpV0 nnn) := fun _ => of_nnn (by decide) nnn

theorem rnd (x : Reg) (nn : Byte) : Statement (.rnd x nn) := fun _ => of_xnn (by decide) x nn

theorem drw (x y : Reg) (n : Nibble) : Statement (.drw x y n) := fun _ => of_xyn (by decide) x y n

theorem skp (x : Reg) : Statement (.skp x) := fun _ => of_x (by decide) x _

theorem sknp (x : Reg) : Statement (.sknp x) := fun _ => of_x (by decide) x _

theorem ldVxDT (x : Reg) : Statement (.ldVxDT x) := fun _ => of_x (by decide) x _

theorem ldVxK (x : Reg) : Statement (.ldVxK x) := fun _ => of_x (by decide) x _

theorem ldDTVx (x : Reg) : Statement (.ldDTVx x) := fun _ => of_x (by decide) x _

theorem ldSTVx (x : Reg) : Statement (.ldSTVx x) := fun _ => of_x (by decide) x _

theorem addIVx (x : Reg) : Statement (.addIVx x) := fun _ => of_x (by decide) x _

theorem ldFVx (x : Reg) : Statement (.ldFVx x) := fun _ => of_x (by decide) x _

theorem ldBVx (x : Reg) : Statement (.ldBVx x) := fun _ => of_x (by decide) x _

theorem ldMemVx (x : Reg) : Statement (.ldMemVx x) := fun _ => of_x (by decide) x _

theorem ldVxMem (x : Reg) : Statement (.ldVxMem x) := fun _ => of_x (by decide) x _

end Sys2Proof.Laws.RowMatches
end

