-- ==== Sys2Proof/Tests/Slice0.lean ====
section
/-! SUPPORT. The model's own tests. The expected results are the spec's: the encodings of 30_encoding.md R96 and the vectors of
95_test_vectors.md, whose number stands before each test. The witnesses at the end meet the hypotheses of the obligations. -/

namespace Sys2Proof.Tests

open Sys2Proof.Machine

/-! ## Well-formedness (30_encoding.md R98) -/

theorem test_sys_0E0_is_ill_formed : Instr.wf (.sys 0x0E0#12) = false := by decide

theorem test_sys_0EE_is_ill_formed : Instr.wf (.sys 0x0EE#12) = false := by decide

theorem test_sys_0E1_is_well_formed : Instr.wf (.sys 0x0E1#12) = true := by decide

/-! ## Decoding of written-out words (30_encoding.md R96, R99), and the bytes of one -/

/-- 0x0123, 0x00E0, 0x00EE, 0x00E1: SYS is every 0NNN but two (R98). -/
theorem test_decode_family0 : decode 0x0123#16 = .ok (.sys 0x123#12) ∧ decode 0x00E0#16 = .ok .cls ∧
    decode 0x00EE#16 = .ok .ret ∧ decode 0x00E1#16 = .ok (.sys 0x0E1#12) := ⟨rfl, rfl, rfl, rfl⟩

theorem test_decode_jumps : decode 0x1ABC#16 = .ok (.jp 0xABC#12) ∧ decode 0x2345#16 = .ok (.call 0x345#12) ∧
    decode 0xB678#16 = .ok (.jpV0 0x678#12) := ⟨rfl, rfl, rfl⟩

theorem test_decode_skips : decode 0x3A2B#16 = .ok (.seVxNN 10 0x2B#8) ∧ decode 0x4B3C#16 = .ok (.sneVxNN 11 0x3C#8) ∧
    decode 0x5AB0#16 = .ok (.seVxVy 10 11) ∧ decode 0x9CD0#16 = .ok (.sneVxVy 12 13) := ⟨rfl, rfl, rfl, rfl⟩

theorem test_decode_literals : decode 0x6F12#16 = .ok (.ldVxNN 15 0x12#8) ∧ decode 0x7E34#16 = .ok (.addVxNN 14 0x34#8) ∧
    decode 0xC1F0#16 = .ok (.rnd 1 0xF0#8) ∧ decode 0xA9BC#16 = .ok (.ldI 0x9BC#12) := ⟨rfl, rfl, rfl, rfl⟩

theorem test_decode_family8 : decode 0x8120#16 = .ok (.ldVxVy 1 2) ∧ decode 0x8231#16 = .ok (.orVxVy 2 3) ∧
    decode 0x8342#16 = .ok (.andVxVy 3 4) ∧ decode 0x8453#16 = .ok (.xorVxVy 4 5) ∧ decode 0x8564#16 = .ok (.addVxVy 5 6) ∧
    decode 0x8675#16 = .ok (.subVxVy 6 7) ∧ decode 0x8786#16 = .ok (.shrVx 7 8) ∧ decode 0x8897#16 = .ok (.subnVxVy 8 9) ∧
    decode 0x89AE#16 = .ok (.shlVx 9 10) := ⟨rfl, rfl, rfl, rfl, rfl, rfl, rfl, rfl, rfl⟩

theorem test_decode_draw : decode 0xD12F#16 = .ok (.drw 1 2 0xF#4) := rfl

theorem test_decode_familyE : decode 0xE39E#16 = .ok (.skp 3) ∧ decode 0xE4A1#16 = .ok (.sknp 4) := ⟨rfl, rfl⟩

theorem test_decode_familyF : decode 0xF107#16 = .ok (.ldVxDT 1) ∧ decode 0xF20A#16 = .ok (.ldVxK 2) ∧
    decode 0xF315#16 = .ok (.ldDTVx 3) ∧ decode 0xF418#16 = .ok (.ldSTVx 4) ∧ decode 0xF51E#16 = .ok (.addIVx 5) ∧
    decode 0xF629#16 = .ok (.ldFVx 6) ∧ decode 0xF733#16 = .ok (.ldBVx 7) ∧ decode 0xF855#16 = .ok (.ldMemVx 8) ∧
    decode 0xF965#16 = .ok (.ldVxMem 9) := ⟨rfl, rfl, rfl, rfl, rfl, rfl, rfl, rfl, rfl⟩

/-- The illegal opcodes of vectors F16, F17, A23, A24, T16 to T19 (R99). -/
theorem test_decode_rejects_by_name : decode 0x5121#16 = .error .family5 ∧ decode 0x9121#16 = .error .family9 ∧
    decode 0x8018#16 = .error .family8 ∧ decode 0x800F#16 = .error .family8 ∧ decode 0xE09F#16 = .error .familyE ∧
    decode 0xF000#16 = .error .familyF ∧ decode 0xF01F#16 = .error .familyF ∧ decode 0xF0FF#16 = .error .familyF :=
  ⟨rfl, rfl, rfl, rfl, rfl, rfl, rfl, rfl⟩

theorem test_decode_bytes : decodeBytes [0xD1#8, 0x25#8, 0x00#8] = .ok (.drw 1 2 0x5#4, [0x00#8]) ∧
    decodeBytes [0xD1#8] = .error .truncated := ⟨rfl, rfl⟩

theorem test_table_word : decodeTableWord 16 0xF265 = some (.ldVxMem 2) := by decide

theorem test_encode_bytes : encodeBytes (.call 0x30A#12) = [0x23#8, 0x0A#8] := by decide

/-! ## One step -/

/-- The state B of 95_test_vectors.md with the opcode `w` at pc = 0x200. -/
def prog (w : Nat) : State := State.reset.withFetchWord 16 w

/-- What one step answers about its next state. -/
def see {α : Type} (f : State → α) (s : State) : Option α :=
  match step s with
  | .next t => some (f t)
  | .fault _ => none
  | .refused _ => none

/-- The registers `rs` and pc after one step. -/
def seeV (rs : List Reg) : State → Option (List Byte × Word) := see fun t => (rs.map (readV t), t.pc)

/-- The code, pc, opcode of the fault after one step. -/
def seeFault : State → Option (Option (Fault × Word × Option Word)) := see fun t => t.fault.map fun r => (r.fault, r.pc, r.op)

/-- F23. -/
theorem test_sys_takes_decode_error : seeFault (prog 0x0123) = some (some (.decodeError, 0x200#16, some 0x0123#16)) := by decide

/-- F1. -/
theorem test_jp : seeV [] (prog 0x1204) = some ([], 0x204#16) := by decide

/-- F3, F4: the two conventions. -/
theorem test_call : see (fun t => (t.pc, t.sp.val, t.stack[0])) (prog 0x2300) = some (0x300#16, 1, 0x202#16) ∧
    see (fun t => (t.pc, t.sp.val, t.stack[0])) { prog 0x2300 with callPush := .callAddress } =
      some (0x300#16, 1, 0x200#16) := by decide

/-- F7. -/
theorem test_call_overflow :
    seeFault { prog 0x2300 with sp := 16 } = some (some (.stackOverflow, 0x200#16, some 0x2300#16)) := by decide

/-- F5: the slot keeps its value. -/
theorem test_ret : see (fun t => (t.pc, t.sp.val, t.stack[0]))
    { prog 0x00EE with sp := 1, stack := State.reset.stack.set 0 0x30E#16 } = some (0x30E#16, 0, 0x30E#16) := by decide

/-- F7c. -/
theorem test_ret_underflow : seeFault (prog 0x00EE) = some (some (.stackUnderflow, 0x200#16, some 0x00EE#16)) := by decide

/-- F8, F9. -/
theorem test_se_literal : seeV [] (writeV 3 0x2A#8 (prog 0x332A)) = some ([], 0x204#16) ∧
    seeV [] (writeV 3 0x2A#8 (prog 0x332B)) = some ([], 0x202#16) := by decide

/-- F10, F11. -/
theorem test_sne_literal : seeV [] (writeV 3 0x2A#8 (prog 0x432B)) = some ([], 0x204#16) ∧
    seeV [] (writeV 3 0x2A#8 (prog 0x432A)) = some ([], 0x202#16) := by decide

/-- F12, F13. -/
theorem test_se_register : seeV [] (writeV 1 7#8 (writeV 2 7#8 (prog 0x5120))) = some ([], 0x204#16) ∧
    seeV [] (writeV 1 7#8 (writeV 2 8#8 (prog 0x5120))) = some ([], 0x202#16) := by decide

/-- F14, F15. -/
theorem test_sne_register : seeV [] (writeV 1 7#8 (writeV 2 8#8 (prog 0x9120))) = some ([], 0x204#16) ∧
    seeV [] (writeV 1 7#8 (writeV 2 7#8 (prog 0x9120))) = some ([], 0x202#16) := by decide

/-- F19: no masking. -/
theorem test_jp_v0 : seeV [] (writeV 0 0xFF#8 (prog 0xBFFF)) = some ([], 0x10FE#16) := by decide

/-- A1. -/
theorem test_ld_literal : seeV [5] (prog 0x65C8) = some ([0xC8#8], 0x202#16) := by decide

/-- A2. -/
theorem test_add_literal_wraps : seeV [0, 15] (writeV 0 0xFF#8 (writeV 15 0x55#8 (prog 0x7002))) =
    some ([0x01#8, 0x55#8], 0x202#16) := by decide

/-- A3. -/
theorem test_ld_register : seeV [15] (writeV 1 0x64#8 (prog 0x8F10)) = some ([0x64#8], 0x202#16) := by decide

/-- A4. -/
theorem test_or : seeV [0, 15] (writeV 0 0x0F#8 (writeV 1 0xF0#8 (writeV 15 0x55#8 (prog 0x8011)))) =
    some ([0xFF#8, 0x55#8], 0x202#16) := by decide

/-- A5. -/
theorem test_and : seeV [0] (writeV 0 0x3C#8 (writeV 1 0x0F#8 (prog 0x8012))) = some ([0x0C#8], 0x202#16) := by decide

/-- A6. -/
theorem test_xor : seeV [0] (writeV 0 0x3C#8 (writeV 1 0x0F#8 (prog 0x8013))) = some ([0x33#8], 0x202#16) := by decide

/-- A7. -/
theorem test_add_carry : seeV [0, 15] (writeV 0 0xFF#8 (writeV 1 0x01#8 (prog 0x8014))) =
    some ([0x00#8, 0x01#8], 0x202#16) := by decide

/-- A10: X = F. -/
theorem test_add_into_flag : seeV [15] (writeV 15 0x10#8 (writeV 1 0xF0#8 (prog 0x8F14))) = some ([0x01#8], 0x202#16) := by
  decide

/-- L1.2. -/
theorem test_sub_borrow : seeV [0, 15] (writeV 0 0x2C#8 (writeV 1 0x64#8 (prog 0x8015))) =
    some ([0xC8#8, 0x00#8], 0x202#16) := by decide

/-- A12: Y = F. -/
theorem test_sub_reads_old_flag : seeV [0, 15] (writeV 0 0x03#8 (writeV 15 0x05#8 (prog 0x80F5))) =
    some ([0xFE#8, 0x00#8], 0x202#16) := by decide

/-- A15: Y is ignored. -/
theorem test_shr : seeV [10, 15] (writeV 10 0x81#8 (prog 0x8A56)) = some ([0x40#8, 0x01#8], 0x202#16) := by decide

/-- A16: X = F. -/
theorem test_shr_flag : seeV [15] (writeV 15 0x02#8 (prog 0x8FF6)) = some ([0x00#8], 0x202#16) := by decide

/-- A18. -/
theorem test_subn_borrow : seeV [0, 15] (writeV 0 0x64#8 (writeV 1 0x2C#8 (prog 0x8017))) =
    some ([0xC8#8, 0x00#8], 0x202#16) := by decide

/-- A19. -/
theorem test_subn_equal : seeV [0, 15] (writeV 0 0x09#8 (writeV 1 0x09#8 (prog 0x8017))) =
    some ([0x00#8, 0x01#8], 0x202#16) := by decide

/-- A20. -/
theorem test_shl : seeV [0, 15] (writeV 0 0xC8#8 (prog 0x800E)) = some ([0x90#8, 0x01#8], 0x202#16) := by decide

/-- A22: X = F. -/
theorem test_shl_flag : seeV [15] (writeV 15 0x81#8 (prog 0x8FFE)) = some ([0x01#8], 0x202#16) := by decide

/-- A25: the offered byte AND the literal. -/
theorem test_rnd : seeV [0] { prog 0xC00F with randQueue := [0xAB#8] } = some ([0x0B#8], 0x202#16) := by decide

/-- A25, through the host's Cycle. -/
theorem test_rnd_cycle : ∃ t, hostCycle 0xAB#8 (prog 0xC00F) = .next t ∧ readV t 0 = 0x0B#8 ∧ t.randQueue = [] :=
  ⟨_, rfl, by decide, rfl⟩

/-- M1. -/
theorem test_ld_i : see (fun t => (t.idx, t.pc)) (prog 0xA123) = some (0x123#16, 0x202#16) := by decide

/-- M5. -/
theorem test_add_i_wraps : see (fun t => (t.idx, readV t 15, t.pc)) { writeV 0 1#8 (prog 0xF01E) with idx := 0xFFFF#16 } =
    some (0x0000#16, 0x01#8, 0x202#16) := by decide

/-- M6: X = F. -/
theorem test_add_i_flag : see (fun t => (t.idx, readV t 15)) { writeV 15 2#8 (prog 0xFF1E) with idx := 0x100#16 } =
    some (0x102#16, 0x00#8) := by decide

/-- M10: no masking. -/
theorem test_ld_f : see (fun t => t.idx) (writeV 0 0xFF#8 (prog 0xF029)) = some 0x4FB#16 := by decide

/-- M14. -/
theorem test_bcd_at_the_top : see (fun t => (t.mem.readList 0xFFD 3, t.idx, t.pc))
    { writeV 0 0x7B#8 (prog 0xF033) with idx := 0xFFD#16 } = some ([1#8, 2#8, 3#8], 0xFFD#16, 0x202#16) := by decide

/-- M15. -/
theorem test_bcd_past_the_top : seeFault { writeV 0 0x7B#8 (prog 0xF033) with idx := 0xFFE#16 } =
    some (some (.memoryOutOfRange 0x1000, 0x200#16, some 0xF033#16)) := by decide

/-- M16. -/
theorem test_dump : see (fun t => (t.mem.readList 0x2FF 5, t.idx, t.pc))
    { writeV 0 1#8 (writeV 1 2#8 (writeV 2 3#8 (writeV 3 9#8 (prog 0xF255)))) with idx := 0x300#16 } =
    some ([0#8, 1#8, 2#8, 3#8, 0#8], 0x303#16, 0x202#16) := by decide

/-- M19. -/
theorem test_dump_lowest_invalid_address : seeFault { prog 0xF055 with idx := 0x1005#16 } =
    some (some (.memoryOutOfRange 0x1005, 0x200#16, some 0xF055#16)) := by decide

/-- M22: the font's first bytes, VF loaded too. -/
theorem test_load_font : see (fun t => (t.v.toList, t.idx)) (prog 0xFF65) =
    some ([0xF0#8, 0x90#8, 0x90#8, 0x90#8, 0xF0#8, 0x20#8, 0x60#8, 0x20#8, 0x20#8, 0x70#8, 0xF0#8, 0x10#8, 0xF0#8, 0x80#8, 0xF0#8,
      0xF0#8], 0x010#16) := by decide

/-- M23. -/
theorem test_load_past_the_top : seeFault { prog 0xFF65 with idx := 0xFF1#16 } =
    some (some (.memoryOutOfRange 0x1000, 0x200#16, some 0xFF65#16)) := by decide

/-- The lit pixels of a frame among the given ones. -/
def litOf (ps : List (Nat × Nat)) (f : Frame) : List Bool := ps.map fun p => f.pixel p.1 p.2

/-- D1. -/
theorem test_cls : see (fun t => (litOf [(0, 0), (63, 31)] t.fb, t.drawFlag, t.pc))
    { prog 0x00E0 with fb := (Frame.clear.toggle (0, 0)).toggle (63, 31) } = some ([false, false], true, 0x202#16) := by decide

/-- D16. -/
theorem test_draw_collides : see (fun t => (litOf [(0, 0), (1, 0), (2, 0), (3, 0), (4, 0), (9, 0)] t.fb, readV t 15, t.drawFlag))
    { prog 0xD011 with fb := (Frame.clear.toggle (1, 0)).toggle (9, 0) } =
    some ([true, false, true, true, false, true], 1#8, true) := by decide

/-- D8, D7: the two edge policies. -/
theorem test_draw_past_the_edge : see (fun t => (litOf [(60, 0), (61, 0), (63, 0), (0, 0)] t.fb, readV t 15))
      { writeV 0 0x3D#8 (prog 0xD011) with drawEdge := .clip } = some ([false, true, true, false], 0#8) ∧
    seeFault (writeV 0 0x3D#8 (prog 0xD011)) =
      some (some (.drawOutOfRange 0x3D#8 0x00#8, 0x200#16, some 0xD011#16)) := by decide

/-- The two keys of T14. -/
def keys39 : Vector Bool 16 := (defaultKeys.set 3 true).set 9 true

/-- T9: another key is pressed; T8. -/
theorem test_skp : seeV [] { writeV 2 7#8 (prog 0xE29E) with keys := defaultKeys.set 6 true } = some ([], 0x202#16) ∧
    seeV [] { writeV 2 7#8 (prog 0xE29E) with keys := defaultKeys.set 7 true } = some ([], 0x204#16) := by decide

/-- T12. -/
theorem test_skp_key_out_of_range : seeFault { writeV 2 0x10#8 (prog 0xE29E) with keys := defaultKeys.set 0 true } =
    some (some (.keyIndexOutOfRange 0x10#8, 0x200#16, some 0xE29E#16)) := by decide

/-- T10, T11. -/
theorem test_sknp : seeV [] { writeV 2 7#8 (prog 0xE2A1) with keys := defaultKeys.set 6 true } = some ([], 0x204#16) ∧
    seeV [] { writeV 2 7#8 (prog 0xE2A1) with keys := defaultKeys.set 7 true } = some ([], 0x202#16) := by decide

/-- T5: the value before the tick. -/
theorem test_ld_dt : see (fun t => (readV t 3, t.dt, t.pc)) { prog 0xF307 with dt := 2#8 } = some (2#8, 1#8, 0x202#16) := by
  decide

/-- T14. -/
theorem test_await_key : see (fun t => (readV t 4, t.dt, t.pc)) { prog 0xF40A with dt := 5#8, keys := keys39 } =
    some (3#8, 4#8, 0x202#16) := by decide

/-- T13. -/
theorem test_await_key_stalls : see (fun t => (t.dt, t.st, t.pc)) { prog 0xF40A with dt := 5#8, st := 5#8 } =
    some (5#8, 5#8, 0x200#16) := by decide

/-- T1. -/
theorem test_set_dt : see (fun t => (t.dt, t.pc)) (writeV 2 3#8 (prog 0xF215)) = some (2#8, 0x202#16) := by decide

/-- T3. -/
theorem test_set_st : see (fun t => (t.st, t.pc)) (writeV 2 1#8 (prog 0xF218)) = some (0#8, 0x202#16) := by decide

/-- E2. -/
theorem test_fetch_past_the_top : seeFault { State.reset with pc := 0xFFF#16 } =
    some (some (.fetchOutOfRange, 0xFFF#16, none)) := by decide

/-- F16. -/
theorem test_illegal_opcode : seeFault (prog 0x5121) = some (some (.decodeError, 0x200#16, some 0x5121#16)) := by decide

/-- E7. -/
theorem test_load : (hostLoad [0x12#8, 0x34#8] State.reset).2.mem.readList 0x1FF 4 = [0#8, 0x12#8, 0x34#8, 0#8] := by decide

/-! ## Witnesses: for each obligation with hypotheses, values that meet them (each clause, at a boundary where it has one) -/

theorem witness_DecodeOfEncodeIsInstruction : (Instr.drw 15 15 0xF#4).wf = true ∧ (Instr.sys 0xFFF#12).wf = true := by decide

theorem witness_EncodeOfDecodeIsOpcode : decode 0xFFFF#16 = .error .familyF ∧ decode 0xFF65#16 = .ok (.ldVxMem 15) := ⟨rfl, rfl⟩

theorem witness_DecodeFollowsOpcodeMap : decode 0xFF65#16 = .ok (.ldVxMem 15) := rfl

theorem witness_OpcodeRowsAreDisjoint : (0xF00F#16, 0x8004#16) ∈ opcodeMap.drop 3 ∧ 0x8124#16 &&& 0xF00F#16 = 0x8004#16 ∧
    0x00E0#16 &&& 0xF000#16 = 0x0000#16 := by decide

theorem witness_IllegalOpcodesTakeDecodeError : illegalOpcode 0x5121#16 = true ∧
    ∃ s : State, s.fault = none ∧ s.pc.toNat = 0xFFE ∧
      illegalOpcode (opcodeOfBytes (s.mem.read s.pc.toNat) (s.mem.read (s.pc.toNat + 1))) = true :=
  ⟨by decide, { State.reset with pc := 0xFFE#16 }.withFetchWord 16 0x5121, by decide, by decide, by decide⟩

/-- A completed instruction, a stall and a faulting instruction. -/
theorem witness_StepRunsDecodedInstruction :
    (∃ t, Decodes (prog 0x65C8) (.ldVxNN 5 0xC8#8) ∧ exec (.ldVxNN 5 0xC8#8) (prog 0x65C8) = .next t ∧ t.fault = none) ∧
    (∃ t, Decodes (prog 0xF40A) (.ldVxK 4) ∧ exec (.ldVxK 4) (prog 0xF40A) = .next t ∧
      ∀ k : Fin 16, (prog 0xF40A).keys[k.val] = false) ∧
    (∃ t, Decodes (prog 0x00EE) .ret ∧ exec .ret (prog 0x00EE) = .next t ∧ t.fault ≠ none) :=
  ⟨⟨_, ⟨rfl, by decide, rfl⟩, rfl, rfl⟩, ⟨_, ⟨rfl, by decide, rfl⟩, rfl, by decide⟩, ⟨_, ⟨rfl, by decide, rfl⟩, rfl, by decide⟩⟩

/-- A core with a latched fault. -/
def faulted : State := raise .fetchOutOfRange none { State.reset with pc := 0x1000#16, dt := 5#8 }

theorem witness_LatchedFaultStopsTheCore : faulted.fault = some ⟨.fetchOutOfRange, 0x1000#16, none⟩ := by decide

theorem witness_FetchFaultsAboveFFE :
    (∃ s : State, s.fault = none ∧ s.pc.toNat = 0xFFF) ∧ (∃ s : State, s.pc.toNat = 0xFFE) :=
  ⟨⟨{ State.reset with pc := 0xFFF#16 }, rfl, rfl⟩, ⟨{ State.reset with pc := 0xFFE#16 }, rfl⟩⟩

theorem witness_FetchIsBigEndian : ∃ s : State, s.pc.toNat = 0xFFE := ⟨{ State.reset with pc := 0xFFE#16 }, rfl⟩

/-- A fault of the fetch, one of an instruction, one of the decoder. -/
theorem witness_FaultingCycleChangesOnlyFault :
    (∃ s t r, s.fault = none ∧ step s = .next t ∧ t.fault = some r ∧ r.fault = .fetchOutOfRange) ∧
    (∃ s t r, s.fault = none ∧ step s = .next t ∧ t.fault = some r ∧ r.fault = .stackUnderflow) ∧
    (∃ s t r, s.fault = none ∧ step s = .next t ∧ t.fault = some r ∧ r.fault = .decodeError) :=
  ⟨⟨{ State.reset with pc := 0xFFF#16 }, _, _, rfl, rfl, rfl, rfl⟩, ⟨prog 0x00EE, _, _, rfl, rfl, rfl, rfl⟩,
    ⟨prog 0x5121, _, _, rfl, rfl, rfl, rfl⟩⟩

/-- Each of the seven faults is taken somewhere. -/
theorem witness_EachFaultHasItsCause :
    (∃ s t r, s.fault = none ∧ step s = .next t ∧ t.fault = some r ∧ r.fault = .fetchOutOfRange) ∧
    (∃ s t r, s.fault = none ∧ step s = .next t ∧ t.fault = some r ∧ r.fault = .decodeError) ∧
    (∃ s t r, s.fault = none ∧ step s = .next t ∧ t.fault = some r ∧ r.fault = .stackOverflow) ∧
    (∃ s t r, s.fault = none ∧ step s = .next t ∧ t.fault = some r ∧ r.fault = .stackUnderflow) ∧
    (∃ s t r, s.fault = none ∧ step s = .next t ∧ t.fault = some r ∧ r.fault = .memoryOutOfRange 0x1000) ∧
    (∃ s t r, s.fault = none ∧ step s = .next t ∧ t.fault = some r ∧ r.fault = .drawOutOfRange 0x3D#8 0x00#8) ∧
    (∃ s t r, s.fault = none ∧ step s = .next t ∧ t.fault = some r ∧ r.fault = .keyIndexOutOfRange 0x10#8) :=
  ⟨⟨{ State.reset with pc := 0xFFF#16 }, _, _, rfl, rfl, rfl, rfl⟩, ⟨prog 0x0123, _, _, rfl, rfl, rfl, rfl⟩,
    ⟨{ prog 0x2300 with sp := 16 }, _, _, rfl, rfl, rfl, rfl⟩, ⟨prog 0x00EE, _, _, rfl, rfl, rfl, rfl⟩,
    ⟨{ prog 0xF033 with idx := 0xFFE#16 }, _, _, rfl, rfl, rfl, rfl⟩,
    ⟨writeV 0 0x3D#8 (prog 0xD011), _, _, rfl, rfl, rfl, rfl⟩, ⟨writeV 2 0x10#8 (prog 0xE29E), _, _, rfl, rfl, rfl, rfl⟩⟩

/-- A completed instruction, an FX0A with a key, a stall, a faulting cycle. -/
theorem witness_TickDecrementsTimersOncePerCycle :
    (∃ t, Decodes (prog 0x1200) (.jp 0x200#12) ∧ exec (.jp 0x200#12) (prog 0x1200) = .next t ∧ t.fault = none) ∧
    (∃ s t, Decodes s (.ldVxK 4) ∧ exec (.ldVxK 4) s = .next t ∧ t.fault = none ∧ s.keys[(3 : Fin 16).val] = true) ∧
    (Decodes (prog 0xF40A) (.ldVxK 4) ∧ ∀ k : Fin 16, (prog 0xF40A).keys[k.val] = false) ∧
    (∃ t, (prog 0x5121).fault = none ∧ step (prog 0x5121) = .next t ∧ t.fault ≠ none) :=
  ⟨⟨_, ⟨rfl, by decide, rfl⟩, rfl, rfl⟩, ⟨{ prog 0xF40A with keys := keys39 }, _, ⟨rfl, by decide, rfl⟩, rfl, rfl, by decide⟩,
    ⟨⟨rfl, by decide, rfl⟩, by decide⟩, ⟨_, rfl, rfl, by decide⟩⟩

theorem witness_StallLeavesStateUnchanged :
    Decodes (prog 0xF40A) (.ldVxK 4) ∧ ∀ k : Fin 16, (prog 0xF40A).keys[k.val] = false := ⟨⟨rfl, by decide, rfl⟩, by decide⟩

theorem witness_CycleReadsRandomByteOnlyForRnd :
    (∃ t, (∀ x nn, ¬ Decodes (prog 0x65C8) (.rnd x nn)) ∧ hostCycle 1#8 (prog 0x65C8) = .next t) ∧
    (∃ t, hostCycle 0xAB#8 (prog 0xC00F) = .next t) := by
  refine ⟨⟨_, fun x nn h => ?_, rfl⟩, _, rfl⟩
  have e : decode (opcodeOfBytes ((prog 0x65C8).mem.read (prog 0x65C8).pc.toNat)
      ((prog 0x65C8).mem.read ((prog 0x65C8).pc.toNat + 1))) = .ok (.ldVxNN 5 0xC8#8) := rfl
  have h2 := e.symm.trans h.2.2
  cases h2

theorem witness_MemoryStaysCanonical : State.reset.mem.wf = true ∧ (prog 0xF255).mem.wf = true := by decide

/-- The reset state, and a state at the bound with every slot occupied by the greatest return address. -/
theorem witness_PcStaysBounded : State.reset.pcBounded ∧
    { State.reset with pc := 0x10FE#16, sp := 16, stack := Vector.replicate 16 0x1000#16 }.pcBounded :=
  ⟨⟨by decide, by decide⟩, ⟨by decide, by decide⟩⟩

theorem witness_RegistersFollowAccessTable : writesReg (.addVxVy 3 4) 4 = false ∧ writesReg (.ldVxMem 3) 4 = false ∧
    writesReg (.ldVxMem 3) 3 = true ∧ writesReg (.ldVxNN 3 0#8) 15 = false := by decide

theorem witness_OnlyCallAndReturnTouchStack : (∀ nnn, Instr.jp 0x200#12 ≠ .call nnn) ∧ Instr.jp 0x200#12 ≠ .ret :=
  ⟨fun _ h => (by cases h), by decide⟩

theorem witness_IndexAndTimersWrittenOnlyByTheirOwn : writesIdx (.ldBVx 3) = false ∧ (∀ x, Instr.ldSTVx 3 ≠ .ldDTVx x) ∧
    (∀ x, Instr.ldDTVx 3 ≠ .ldSTVx x) := ⟨rfl, fun _ h => (by cases h), fun _ h => (by cases h)⟩

theorem witness_OnlyDisplayInstructionsWriteFrame :
    (Instr.ret ≠ .cls ∧ ∀ x y n, Instr.ret ≠ .drw x y n) ∧ ∃ s : State, s.drawFlag = true :=
  ⟨⟨by decide, fun _ _ _ h => (by cases h)⟩, { State.reset with drawFlag := true }, rfl⟩

/-- The bytes just below and just above the stored ones, and an instruction that stores nothing. -/
theorem witness_MemoryOutsideStoresUnchanged :
    storesTo (.ldBVx 0) { State.reset with idx := 0x300#16 } 0x2FF = false ∧
    storesTo (.ldBVx 0) { State.reset with idx := 0x300#16 } 0x302 = true ∧
    storesTo (.ldBVx 0) { State.reset with idx := 0x300#16 } 0x303 = false ∧
    storesTo (.ldMemVx 2) { State.reset with idx := 0x300#16 } 0x302 = true ∧
    storesTo (.ldMemVx 2) { State.reset with idx := 0x300#16 } 0x303 = false ∧
    storesTo .cls State.reset 0x300 = false := by decide

/-- A next state with no fault, and one with a fault. -/
theorem witness_PcFollowsTable : State.reset.fault = none ∧ (∃ t, exec .cls State.reset = .next t ∧ t.fault = none) ∧
    ∃ t, exec .ret State.reset = .next t ∧ t.fault ≠ none := ⟨rfl, ⟨_, rfl, rfl⟩, ⟨_, rfl, by decide⟩⟩

theorem witness_SysTakesDecodeError : 0x00E1#16 &&& 0xF000#16 = 0x0000#16 ∧ 0x00E1#16 ≠ 0x00E0#16 ∧ 0x00E1#16 ≠ 0x00EE#16 := by
  decide

theorem witness_JumpsSetPc : 0x1FFF#16 &&& 0xF000#16 = 0x1000#16 ∧ 0xBFFF#16 &&& 0xF000#16 = 0xB000#16 := by decide

theorem witness_SelfLoopOnlyTicks :
    Decodes { prog 0x1200 with dt := 5#8, st := 1#8 } (.jp 0x200#12) ∧ (prog 0x1200).pc.toNat = (0x200#12).toNat :=
  ⟨⟨rfl, by decide, rfl⟩, rfl⟩

theorem witness_CallPushesAndJumps : 0x2FFF#16 &&& 0xF000#16 = 0x2000#16 ∧ (∃ s : State, s.sp.val = 15 ∧ s.sp.val < 16) ∧
    ∃ s : State, s.sp.val = 16 :=
  ⟨by decide, ⟨{ State.reset with sp := 15 }, rfl, by decide⟩, ⟨{ State.reset with sp := 16 }, rfl⟩⟩

theorem witness_ReturnPopsAndJumps : 0x00EE#16 &&& 0xFFFF#16 = 0x00EE#16 ∧ (∃ s : State, s.sp.val = 1 ∧ 0 < s.sp.val) ∧
    (∃ s : State, s.sp.val = 16 ∧ 0 < s.sp.val) ∧ State.reset.sp.val = 0 :=
  ⟨by decide, ⟨{ State.reset with sp := 1 }, rfl, by decide⟩, ⟨{ State.reset with sp := 16 }, rfl, by decide⟩, rfl⟩

theorem witness_ReturnResumesAfterCall : ∃ t u : State, State.reset.sp.val < 16 ∧ exec (.call 0x300#12) State.reset = .next t ∧
    u.stack = t.stack ∧ u.sp = t.sp ∧ u.callPush = State.reset.callPush := ⟨_, _, by decide, rfl, rfl, rfl, rfl⟩

theorem witness_SkipsTestTheirCondition : 0x3FFF#16 &&& 0xF000#16 = 0x3000#16 ∧ 0x4FFF#16 &&& 0xF000#16 = 0x4000#16 ∧
    0x5FF0#16 &&& 0xF00F#16 = 0x5000#16 ∧ 0x9FF0#16 &&& 0xF00F#16 = 0x9000#16 := by decide

theorem witness_LoadsAndLogicWriteOneRegister : 0x6FFF#16 &&& 0xF000#16 = 0x6000#16 ∧ 0x8FF0#16 &&& 0xF00F#16 = 0x8000#16 ∧
    0x8FF1#16 &&& 0xF00F#16 = 0x8001#16 ∧ 0x8FF2#16 &&& 0xF00F#16 = 0x8002#16 ∧ 0x8FF3#16 &&& 0xF00F#16 = 0x8003#16 := by decide

theorem witness_AddLiteralWrapsWithoutFlag : 0x7FFF#16 &&& 0xF000#16 = 0x7000#16 := by decide

theorem witness_AddSetsCarryFlag : 0x8FF4#16 &&& 0xF00F#16 = 0x8004#16 := by decide

theorem witness_SubtractsSetNotBorrowFlag : 0x8FF5#16 &&& 0xF00F#16 = 0x8005#16 ∧ 0x8FF7#16 &&& 0xF00F#16 = 0x8007#16 := by decide

theorem witness_ShiftsSetShiftedOutBit : 0x8FF6#16 &&& 0xF00F#16 = 0x8006#16 ∧ 0x8FFE#16 &&& 0xF00F#16 = 0x800E#16 := by decide

theorem witness_FlagIsLastEffect : (14 : Reg) ≠ 15 := by decide

theorem witness_RandomByteAndLiteral : 0xCFFF#16 &&& 0xF000#16 = 0xC000#16 ∧
    (∃ s : State, s.randQueue = 0xAB#8 :: []) ∧ State.reset.randQueue = [] ∧ Decodes (prog 0xC00F) (.rnd 0 0x0F#8) :=
  ⟨by decide, ⟨{ State.reset with randQueue := [0xAB#8] }, rfl⟩, rfl, ⟨rfl, by decide, rfl⟩⟩

theorem witness_LoadIndexSetsIndex : 0xAFFF#16 &&& 0xF000#16 = 0xA000#16 := by decide

theorem witness_AddIndexSetsOverflowFlag : 0xFF1E#16 &&& 0xF0FF#16 = 0xF01E#16 := by decide

theorem witness_GlyphAddressIsFiveTimes : 0xFF29#16 &&& 0xF0FF#16 = 0xF029#16 := by decide

theorem witness_BcdStoreWritesDigits : 0xFF33#16 &&& 0xF0FF#16 = 0xF033#16 ∧
    (∃ s : State, s.mem.wf = true ∧ s.idx.toNat = 0xFFD ∧ s.idx.toNat + 2 ≤ 0xFFF) ∧
    ∃ s : State, s.idx.toNat = 0xFFE ∧ 0xFFF < s.idx.toNat + 2 :=
  ⟨by decide, ⟨{ State.reset with idx := 0xFFD#16 }, rfl, rfl, by decide⟩, ⟨{ State.reset with idx := 0xFFE#16 }, rfl, by decide⟩⟩

theorem witness_RegisterDumpStoresRegisters : 0xFF55#16 &&& 0xF0FF#16 = 0xF055#16 ∧
    (∃ s : State, s.mem.wf = true ∧ s.idx.toNat = 0xFF0 ∧ s.idx.toNat + (15 : Reg).val ≤ 0xFFF) ∧
    ∃ s : State, s.idx.toNat = 0xFF1 ∧ 0xFFF < s.idx.toNat + (15 : Reg).val :=
  ⟨by decide, ⟨{ State.reset with idx := 0xFF0#16 }, rfl, rfl, by decide⟩, ⟨{ State.reset with idx := 0xFF1#16 }, rfl, by decide⟩⟩

theorem witness_RegisterLoadReadsRegisters : 0xFF65#16 &&& 0xF0FF#16 = 0xF065#16 ∧
    (∃ s : State, s.idx.toNat = 0xFF0 ∧ s.idx.toNat + (15 : Reg).val ≤ 0xFFF) ∧
    ∃ s : State, s.idx.toNat = 0xFF1 ∧ 0xFFF < s.idx.toNat + (15 : Reg).val :=
  ⟨by decide, ⟨{ State.reset with idx := 0xFF0#16 }, rfl, by decide⟩, ⟨{ State.reset with idx := 0xFF1#16 }, rfl, by decide⟩⟩

/-- Three registers with values of their own, I at 0x300. -/
def dumpState : State := { writeV 0 1#8 (writeV 1 2#8 (writeV 2 3#8 State.reset)) with idx := 0x300#16 }

theorem witness_DumpThenLoadRoundTrips : ∃ t u : State, dumpState.mem.wf = true ∧ dumpState.idx.toNat + (2 : Reg).val ≤ 0xFFF ∧
    exec (.ldMemVx 2) dumpState = .next t ∧ u.mem = t.mem ∧ u.idx = dumpState.idx ∧ readV u 0 = 0#8 := by
  obtain ⟨t, ht⟩ : ∃ t, exec (.ldMemVx 2) dumpState = .next t := ⟨_, rfl⟩
  exact ⟨t, { State.reset with mem := t.mem, idx := dumpState.idx }, rfl, by decide, ht, rfl, rfl, rfl⟩

theorem witness_StoredBytesAreFetched :
    (∃ t u : State, dumpState.mem.wf = true ∧ dumpState.idx.toNat + (2 : Reg).val ≤ 0xFFF ∧ exec (.ldMemVx 2) dumpState = .next t ∧
      (1 : Reg).val < (2 : Reg).val ∧ u.mem = t.mem ∧ u.pc.toNat = dumpState.idx.toNat + (1 : Reg).val) ∧
    (∃ t u : State, dumpState.mem.wf = true ∧ dumpState.idx.toNat + 2 ≤ 0xFFF ∧ exec (.ldBVx 2) dumpState = .next t ∧
      u.mem = t.mem ∧ u.pc.toNat = dumpState.idx.toNat) ∧
    (∃ t u : State, exec (.ldBVx 2) dumpState = .next t ∧ u.mem = t.mem ∧ u.pc.toNat = dumpState.idx.toNat + 1) ∧
    (∃ u : State, 0 + 1 < [0x12#8, 0x34#8].length ∧ State.reset.mem.wf = true ∧ [0x12#8, 0x34#8].length ≤ 3584 ∧
      u.mem = (hostLoad [0x12#8, 0x34#8] State.reset).2.mem ∧ u.pc.toNat = 0x200 + 0) := by
  obtain ⟨t, ht⟩ : ∃ t, exec (.ldMemVx 2) dumpState = .next t := ⟨_, rfl⟩
  obtain ⟨w, hw⟩ : ∃ w, exec (.ldBVx 2) dumpState = .next w := ⟨_, rfl⟩
  exact ⟨⟨t, { State.reset with mem := t.mem, pc := 0x301#16 }, rfl, by decide, ht, by decide, rfl, rfl⟩,
    ⟨w, { State.reset with mem := w.mem, pc := 0x300#16 }, rfl, by decide, hw, rfl, rfl⟩,
    ⟨w, { State.reset with mem := w.mem, pc := 0x301#16 }, hw, rfl, rfl⟩,
    ⟨(hostLoad [0x12#8, 0x34#8] State.reset).2, by decide, rfl, by decide, rfl, rfl⟩⟩

theorem witness_ClearScreenZeroesPixels : 0x00E0#16 &&& 0xFFFF#16 = 0x00E0#16 := by decide

/-- The right-hand state of D12: the only set bit of the sprite byte 0x20 lands at column 64. -/
def drawAtEdge : State := { writeV 0 0x3E#8 State.reset with idx := 5#16 }

theorem lit_drawAtEdge : lit drawAtEdge 0 1 1#4 64 0 := ⟨by decide, by decide, by decide, by decide, by decide⟩

/-- A draw of no rows, a draw of a row at (0, 0) whose set bits all lie on the screen, and a draw under `Clip` that reaches the last
valid byte. -/
theorem witness_DrawTogglesExactlyTheSprite : 0xDFFF#16 &&& 0xF000#16 = 0xD000#16 ∧ (0#4).toNat = 0 ∧
    (State.reset.idx.toNat + (1#4).toNat ≤ 0x1000 ∧ ∀ px py, lit State.reset 0 1 1#4 px py → px < 64 ∧ py < 32) ∧
    ∃ s : State, s.idx.toNat + (15#4).toNat = 0x1000 ∧ s.drawEdge = .clip := by
  refine ⟨by decide, rfl, ⟨by decide, fun px py h => ?_⟩, { State.reset with idx := 0xFF1#16, drawEdge := .clip }, rfl, rfl⟩
  have h0 : (readV State.reset 0).toNat = 0 := by decide
  have h1 : (readV State.reset 1).toNat = 0 := by decide
  have h2 : (1#4).toNat = 1 := by decide
  obtain ⟨_, h3, _, h4, _⟩ := h
  omega

theorem witness_DrawFaultsChangeNothingElse :
    (∃ s : State, 0 < (3#4).toNat ∧ s.idx.toNat = 0xFFE ∧ 0x1000 < s.idx.toNat + (3#4).toNat) ∧
    (drawAtEdge.idx.toNat + (1#4).toNat ≤ 0x1000 ∧ drawAtEdge.drawEdge = .fault ∧
      ∃ px py, lit drawAtEdge 0 1 1#4 px py ∧ (64 ≤ px ∨ 32 ≤ py)) :=
  ⟨⟨{ State.reset with idx := 0xFFE#16 }, by decide, rfl, by decide⟩, by decide, rfl, 64, 0, lit_drawAtEdge, .inl (le_refl _)⟩

theorem witness_DrawTwiceRestoresFrame :
    (∃ t u : State, State.reset.fault = none ∧ exec (.drw 0 1 5#4) State.reset = .next t ∧ t.fault = none ∧ u.fault = none ∧
      u.mem = State.reset.mem ∧ u.idx = State.reset.idx ∧ u.fb = t.fb ∧ u.drawEdge = State.reset.drawEdge ∧
      readV u 0 = readV State.reset 0 ∧ readV u 1 = readV State.reset 1) ∧
    ∀ px py, px < 64 → py < 32 → State.reset.fb.pixel px py = false := by
  obtain ⟨t, ht, hf⟩ : ∃ t, exec (.drw 0 1 5#4) State.reset = .next t ∧ t.fault = none := ⟨_, rfl, rfl⟩
  exact ⟨⟨t, { State.reset with fb := t.fb }, rfl, ht, hf, rfl, rfl, rfl, rfl, rfl, rfl, rfl⟩,
    fun px py _ _ => Frame.pixel_clear px py⟩

/-- Assumption log 13: a second draw whose one set bit lies on the screen sets VF to 0 where the pixel was on before the first. The
first draw leaves a clear framebuffer here, and a draw onto one sets VF to 0 by R214's own second law. -/
theorem witness_second_draw_flag_follows_the_pixels : ∃ s t u : State, s.fb.pixel 2 0 = true ∧ lit s 0 1 1#4 2 0 ∧
    exec (.drw 0 1 1#4) s = .next t ∧ exec (.drw 0 1 1#4) t = .next u ∧ t.fb = Frame.clear ∧
    readV t 15 = 1#8 ∧ readV u 15 = 0#8 :=
  ⟨{ State.reset with idx := 5#16, fb := Frame.clear.toggle (2, 0) }, _, _, by decide,
    ⟨by decide, by decide, by decide, by decide, by decide⟩, rfl, rfl, by decide, by decide, by decide⟩

theorem witness_TimerInstructionsThenTick : (0xFF07#16 &&& 0xF0FF#16 = 0xF007#16 ∧ 0xFF15#16 &&& 0xF0FF#16 = 0xF015#16 ∧
      0xFF18#16 &&& 0xF0FF#16 = 0xF018#16) ∧
    Decodes (prog 0xF307) (.ldVxDT 3) ∧ Decodes (prog 0xF215) (.ldDTVx 2) ∧ Decodes (prog 0xF218) (.ldSTVx 2) :=
  ⟨by decide, ⟨rfl, by decide, rfl⟩, ⟨rfl, by decide, rfl⟩, ⟨rfl, by decide, rfl⟩⟩

/-- FX15 (V2 = 3), one cycle of 6000, FX07; FX18 (V2 = 3), one cycle of 6000; a self-loop. -/
theorem witness_TimerCountsDownWhileCyclesRun :
    (∃ s t u v : State, Decodes s (.ldDTVx 2) ∧ step s = .next t ∧ CompletesEach (fun i => ∀ z, i ≠ .ldDTVx z) 1 t u ∧
      Decodes u (.ldVxDT 3) ∧ step u = .next v ∧ readV v 3 = 1#8) ∧
    (∃ s t u : State, Decodes s (.ldSTVx 2) ∧ step s = .next t ∧ CompletesEach (fun i => ∀ z, i ≠ .ldSTVx z) 1 t u ∧
      u.st = 1#8) ∧
    (∃ t : State, Decodes (prog 0x1200) (.jp 0x200#12) ∧ (prog 0x1200).pc.toNat = (0x200#12).toNat ∧
      Host.Core.run Sys2Proof.core 1 (prog 0x1200) = .next t) :=
  ⟨⟨writeV 2 3#8 { State.reset with mem := State.reset.mem.writeList 0x200 [0xF2#8, 0x15#8, 0x60#8, 0x00#8, 0xF3#8, 0x07#8] }, _, _, _,
      ⟨rfl, by decide, rfl⟩, rfl,
      ⟨.ldVxNN 0 0#8, _, fun _ h => (by cases h), ⟨⟨rfl, by decide, rfl⟩, rfl, rfl, .inl fun _ h => (by cases h)⟩, rfl⟩,
      ⟨rfl, by decide, rfl⟩, rfl, by decide⟩,
    ⟨writeV 2 3#8 { State.reset with mem := State.reset.mem.writeList 0x200 [0xF2#8, 0x18#8, 0x60#8, 0x00#8] }, _, _,
      ⟨rfl, by decide, rfl⟩, rfl,
      ⟨.ldVxNN 0 0#8, _, fun _ h => (by cases h), ⟨⟨rfl, by decide, rfl⟩, rfl, rfl, .inl fun _ h => (by cases h)⟩, rfl⟩, by decide⟩,
    ⟨_, ⟨rfl, by decide, rfl⟩, rfl, rfl⟩⟩

theorem witness_AwaitKeyTakesLowestPressedKey : 0xFF0A#16 &&& 0xF0FF#16 = 0xF00A#16 ∧
    (∃ s : State, s.keys[(3 : Fin 16).val] = true ∧ ∀ j : Fin 16, j < 3 → s.keys[j.val] = false) ∧
    (∃ s : State, s.keys[(15 : Fin 16).val] = true ∧ ∀ j : Fin 16, j < 15 → s.keys[j.val] = false) ∧
    (∀ k : Fin 16, State.reset.keys[k.val] = false) ∧
    (∃ s : State, Decodes s (.ldVxK 4) ∧ s.keys[(3 : Fin 16).val] = true ∧ ∀ j : Fin 16, j < 3 → s.keys[j.val] = false) ∧
    (Decodes (prog 0xF40A) (.ldVxK 4) ∧ ∀ k : Fin 16, (prog 0xF40A).keys[k.val] = false) :=
  ⟨by decide, ⟨{ State.reset with keys := keys39 }, by decide, by decide⟩,
    ⟨{ State.reset with keys := defaultKeys.set 15 true }, by decide, by decide⟩, by decide,
    ⟨{ prog 0xF40A with keys := keys39 }, ⟨rfl, by decide, rfl⟩, by decide, by decide⟩, ⟨⟨rfl, by decide, rfl⟩, by decide⟩⟩

theorem witness_KeySkipsTestKey : 0xEF9E#16 &&& 0xF0FF#16 = 0xE09E#16 ∧ 0xEFA1#16 &&& 0xF0FF#16 = 0xE0A1#16 ∧
    (∃ s : State, (readV s 2).toNat = 15 ∧ (readV s 2).toNat < 16) ∧ (∃ s : State, (readV s 2).toNat = 16 ∧ 15 < (readV s 2).toNat) :=
  ⟨by decide, by decide, ⟨writeV 2 15#8 State.reset, by decide, by decide⟩, ⟨writeV 2 16#8 State.reset, by decide, by decide⟩⟩

theorem witness_LoadCopiesRomOrChangesNothing : State.reset.mem.wf = true ∧ (List.replicate 3584 0x12#8).length ≤ 3584 ∧
    3584 < (List.replicate 3585 0x34#8).length :=
  ⟨rfl, by rw [List.length_replicate], by rw [List.length_replicate]; decide⟩

end Sys2Proof.Tests
end

/-! Proofs for the family of 00_scope.md: that a cycle always has a next state, how a property passes through a cycle, and the
fields no instruction writes. -/

namespace Sys2Proof.Machine

/-- Every instruction has a next state: a fault and a stall are next states too (60_exceptions.md R260; 45_timers_keypad.md R233). -/
theorem exec_total (i : Instr) (s : State) : ∃ t, exec i s = .next t := by
  cases i with
  | ret | call | skp | sknp | ldVxK | ldBVx | ldMemVx | ldVxMem =>
    simp only [exec, execRet, execCall, execSkp, execSknp, execLdVxK, execLdBVx, execLdMemVx, execLdVxMem]
    split <;> exact ⟨_, rfl⟩
  | drw x y n =>
    simp only [exec, execDrw]
    split
    · exact ⟨_, rfl⟩
    · split <;> exact ⟨_, rfl⟩
  | _ => exact ⟨_, rfl⟩

/-- Every cycle has a next state (40_cycle_engine.md R120). -/
theorem step_total (s : State) : ∃ t, step s = .next t := by
  unfold step
  split
  · exact ⟨_, rfl⟩
  · split
    · exact ⟨_, rfl⟩
    · split
      · exact ⟨_, rfl⟩
      · next i _ =>
        obtain ⟨u, hu⟩ := exec_total i s
        exact ⟨endCycle i s u, by rw [hu]⟩

/-- A property holds after a cycle if it holds before it, after any fault entry, and after the decoded instruction, and a tick
keeps it (40_cycle_engine.md R120-R128). -/
theorem step_preserves {P : State → Prop} {s t : State} (h : step s = .next t) (hs : P s)
    (hraise : ∀ f op, P (raise f op s)) (hexec : ∀ i u, Decodes s i → exec i s = .next u → P u)
    (htick : ∀ u, P u → P (tick u)) : P t := by
  rcases step_cases h with ⟨_, rfl⟩ | ⟨_, _, rfl⟩ | ⟨op, _, _, _, _, rfl⟩ | ⟨op, i, u, hf, hop, hi, hu, rfl⟩
  · exact hs
  · exact hraise _ _
  · exact hraise _ _
  · have hPu : P u := hexec i u ((decodes_iff s i).2 ⟨hf, op, hop, hi⟩) hu
    rcases endCycle_cases i s u with ⟨he, _⟩ | ⟨he, _⟩ <;> rw [he]
    · exact hPu
    · exact htick u hPu

/-- The fields that only the host sets: the keypad (10_state.md R38) and the machine's two open choices (00_scope.md R8). -/
structure SameHostFields (s t : State) : Prop where
  keys : t.keys = s.keys
  callPush : t.callPush = s.callPush
  drawEdge : t.drawEdge = s.drawEdge

/-- No instruction writes a field that only the host sets. -/
theorem exec_sameHostFields {i : Instr} {s t : State} (h : exec i s = .next t) : SameHostFields s t := by
  cases i with
  | ret =>
    simp only [exec, execRet] at h
    split at h <;> cases h
    · next hp =>
      obtain ⟨_, _, rfl⟩ := pop_eq_some hp
      exact ⟨rfl, rfl, rfl⟩
    · exact ⟨rfl, rfl, rfl⟩
  | call nnn =>
    simp only [exec, execCall] at h
    split at h <;> cases h
    · next hp =>
      obtain ⟨_, rfl⟩ := push_eq_some hp
      exact ⟨rfl, rfl, rfl⟩
    · exact ⟨rfl, rfl, rfl⟩
  | rnd x nn =>
    cases h
    constructor <;> simp [writeResult]
  | drw x y n =>
    simp only [exec, execDrw] at h
    split at h
    · cases h
      exact ⟨rfl, rfl, rfl⟩
    · split at h <;> cases h <;> exact ⟨rfl, rfl, rfl⟩
  | skp | sknp | ldVxK | ldBVx | ldMemVx | ldVxMem =>
    simp only [exec, execSkp, execSknp, execLdVxK, execLdBVx, execLdMemVx, execLdVxMem] at h
    split at h <;> cases h <;> exact ⟨rfl, rfl, rfl⟩
  | _ =>
    cases h
    exact ⟨rfl, rfl, rfl⟩

/-- No cycle writes a field that only the host sets. -/
theorem step_sameHostFields {s t : State} (h : step s = .next t) : SameHostFields s t :=
  step_preserves h ⟨rfl, rfl, rfl⟩ (fun _ _ => ⟨rfl, rfl, rfl⟩) (fun _ _ _ hu => exec_sameHostFields hu)
    fun _ hu => ⟨hu.keys, hu.callPush, hu.drawEdge⟩

/-- Settles O17: every cycle has a next state, and no case of a cycle writes a field that only the host sets. -/
theorem openChoicesNeverChange : Obligations.OpenChoicesNeverChange := by
  intro s
  obtain ⟨t, ht⟩ := step_total s
  have same := step_sameHostFields ht
  exact ⟨t, ht, same.callPush, same.drawEdge⟩

end Sys2Proof.Machine

/-! Proofs for the family of 10_state.md: what each instruction leaves unchanged and does not read, where it leaves pc, the bound on
pc, and what Reset leaves. -/

namespace Sys2Proof.Machine

/-! ### Registers after the shared operations -/

section
variable (s : State) (r : Reg)

@[simp] theorem readV_takeRandom : readV (takeRandom s).2 r = readV s r := by simp only [readV, takeRandom_v]

variable {r}

theorem readV_setFlag_other (c : Bool) (h : r ≠ 15) : readV (setFlag c s) r = readV s r := readV_writeV_other s _ h

theorem readV_writeResult_other {x : Reg} (b : Byte) (h : r ≠ x) : readV (writeResult x b s) r = readV s r :=
  readV_writeV_other s b h

theorem readV_writeResultFlag_other {x : Reg} (b : Byte) (c : Bool) (h : r ≠ x) (hF : r ≠ 15) :
    readV (writeResultFlag x b c s) r = readV s r :=
  (readV_setFlag_other _ c hF).trans (readV_writeV_other s b h)

theorem readV_drawOn_other (p : List (Nat × Nat)) (h : r ≠ 15) : readV (drawOn p s) r = readV s r :=
  readV_setFlag_other _ _ h

theorem readV_loadRegistersTo_above {x : Reg} (h : x < r) : readV (loadRegistersTo x s) r = readV s r := by
  have : ¬ r.val ≤ x.val := not_le.2 h
  simp [readV, this]

end

/-! ### What an instruction leaves unchanged -/

/-- From `s` to `t` only what `i` writes has changed: the registers by the access table (10_state.md R23), I (R30), DT (R34), the
framebuffer and the draw flag (R37, R39), which no instruction sets false. -/
structure ExecFrame (i : Instr) (s t : State) : Prop where
  registers : ∀ r, writesReg i r = false → readV t r = readV s r
  idx : writesIdx i = false → t.idx = s.idx
  dt : (∀ x, i ≠ .ldDTVx x) → t.dt = s.dt
  display : i ≠ .cls → (∀ x y n, i ≠ .drw x y n) → t.fb = s.fb ∧ t.drawFlag = s.drawFlag
  drawFlagStays : s.drawFlag = true → t.drawFlag = true

/-- An instruction that writes none of I, DT and the display has only its registers to account for. -/
theorem ExecFrame.of_registers {i : Instr} {s t : State} (hv : ∀ r, writesReg i r = false → readV t r = readV s r)
    (hidx : t.idx = s.idx) (hdt : t.dt = s.dt) (hfb : t.fb = s.fb) (hflag : t.drawFlag = s.drawFlag) : ExecFrame i s t :=
  ⟨hv, fun _ => hidx, fun _ => hdt, fun _ _ => ⟨hfb, hflag⟩, fun h => hflag.trans h⟩

theorem ExecFrame.of_raiseIn (f : Fault) (i : Instr) (s : State) : ExecFrame i s (raiseIn f i s) :=
  .of_registers (fun _ _ => rfl) rfl rfl rfl rfl

/-- Every instruction changes only what it writes (10_state.md R23, R30, R34, R37, R39). -/
theorem exec_frame {i : Instr} {s t : State} (h : exec i s = .next t) : ExecFrame i s t := by
  cases i with
  | ldVxNN | addVxNN | ldVxVy | orVxVy | andVxVy | xorVxVy | ldVxDT =>
    cases h
    exact .of_registers (fun r hr => readV_writeResult_other s _ (beq_eq_false_iff_ne.1 hr)) rfl rfl rfl rfl
  | rnd x nn =>
    cases h
    refine .of_registers (fun r hr => ?_) ?_ ?_ ?_ ?_
    · rw [readV_writeResult_other _ _ (beq_eq_false_iff_ne.1 hr), readV_takeRandom]
    all_goals simp [writeResult]
  | addVxVy | subVxVy | shrVx | subnVxVy | shlVx =>
    cases h
    refine .of_registers (fun r hr => ?_) rfl rfl rfl rfl
    obtain ⟨hx, hF⟩ := Bool.or_eq_false_iff.1 hr
    exact readV_writeResultFlag_other s _ _ (beq_eq_false_iff_ne.1 hx) (beq_eq_false_iff_ne.1 hF)
  | ldVxK x =>
    simp only [exec, execLdVxK] at h
    split at h <;> cases h
    · exact .of_registers (fun r hr => readV_writeResult_other s _ (beq_eq_false_iff_ne.1 hr)) rfl rfl rfl rfl
    · exact .of_registers (fun _ _ => rfl) rfl rfl rfl rfl
  | cls =>
    cases h
    exact ⟨fun _ _ => rfl, fun _ => rfl, fun _ => rfl, fun hi => absurd rfl hi, fun _ => rfl⟩
  | drw x y n =>
    simp only [exec, execDrw] at h
    split at h
    · cases h
      exact .of_raiseIn ..
    · split at h <;> cases h
      · exact .of_raiseIn ..
      · exact ⟨fun r hr => readV_drawOn_other s _ (beq_eq_false_iff_ne.1 hr), fun _ => rfl, fun _ => rfl,
          fun _ hi => absurd rfl (hi x y n), fun _ => rfl⟩
  | ldI | ldFVx =>
    cases h
    exact ⟨fun _ _ => rfl, nofun, fun _ => rfl, fun _ _ => ⟨rfl, rfl⟩, id⟩
  | addIVx x =>
    cases h
    exact ⟨fun r hr => readV_setFlag_other _ _ (beq_eq_false_iff_ne.1 hr), nofun, fun _ => rfl, fun _ _ => ⟨rfl, rfl⟩, id⟩
  | ldMemVx x =>
    simp only [exec, execLdMemVx] at h
    split at h <;> cases h
    · exact .of_raiseIn ..
    · exact ⟨fun _ _ => rfl, nofun, fun _ => rfl, fun _ _ => ⟨rfl, rfl⟩, id⟩
  | ldVxMem x =>
    simp only [exec, execLdVxMem] at h
    split at h <;> cases h
    · exact .of_raiseIn ..
    · exact ⟨fun r hr => readV_loadRegistersTo_above s (not_le.1 (of_decide_eq_false hr)), nofun, fun _ => rfl,
        fun _ _ => ⟨rfl, rfl⟩, id⟩
  | ldDTVx x =>
    cases h
    exact ⟨fun _ _ => rfl, fun _ => rfl, fun hi => absurd rfl (hi x), fun _ _ => ⟨rfl, rfl⟩, id⟩
  | ret =>
    simp only [exec, execRet] at h
    split at h <;> cases h
    · next hp =>
      obtain ⟨_, _, rfl⟩ := pop_eq_some hp
      exact .of_registers (fun _ _ => rfl) rfl rfl rfl rfl
    · exact .of_raiseIn ..
  | call nnn =>
    simp only [exec, execCall] at h
    split at h <;> cases h
    · next hp =>
      obtain ⟨_, rfl⟩ := push_eq_some hp
      exact .of_registers (fun _ _ => rfl) rfl rfl rfl rfl
    · exact .of_raiseIn ..
  | skp | sknp | ldBVx =>
    simp only [exec, execSkp, execSknp, execLdBVx] at h
    split at h <;> cases h <;> exact .of_registers (fun _ _ => rfl) rfl rfl rfl rfl
  | _ =>
    cases h
    exact .of_registers (fun _ _ => rfl) rfl rfl rfl rfl

/-- Settles O22: the frame's register part. -/
theorem registersFollowAccessTable : Obligations.RegistersFollowAccessTable := by
  intro i s
  obtain ⟨t, ht⟩ := exec_total i s
  exact ⟨t, ht, (exec_frame ht).registers⟩

/-- Settles O25: the frame's display part; a cycle keeps the draw flag true because a fault entry, every instruction and the tick
do. -/
theorem onlyDisplayInstructionsWriteFrame : Obligations.OnlyDisplayInstructionsWriteFrame := by
  refine ⟨fun i s hcls hdrw => ?_, fun s hs => ?_, fun s => rfl⟩
  · obtain ⟨t, ht⟩ := exec_total i s
    exact ⟨t, ht, (exec_frame ht).display hcls hdrw⟩
  · obtain ⟨t, ht⟩ := step_total s
    exact ⟨t, ht, step_preserves (P := fun u => u.drawFlag = true) ht hs (fun _ _ => hs)
      (fun _ _ _ hu => (exec_frame hu).drawFlagStays hs) fun _ hu => hu⟩

/-! ### What an instruction does not read -/

/-- `s` with other values in the fields that only 2NNN, 00EE and FX18 touch: SP, the stack's slots and ST. -/
def State.withStackAndST (n : Fin 17) (k : Vector Word 16) (b : Byte) (s : State) : State :=
  { s with sp := n, stack := k, st := b }

section
variable (n : Fin 17) (k : Vector Word 16) (b : Byte) (s : State)

@[simp] theorem readV_withStackAndST (x : Reg) : readV (s.withStackAndST n k b) x = readV s x := rfl
@[simp] theorem withStackAndST_idx : (s.withStackAndST n k b).idx = s.idx := rfl
@[simp] theorem lowestKey_withStackAndST : lowestKey (s.withStackAndST n k b) = lowestKey s := rfl
@[simp] theorem drawPixels_withStackAndST (x y : Reg) (m : Nibble) :
    drawPixels x y m (s.withStackAndST n k b) = drawPixels x y m s := rfl
@[simp] theorem drawFaults_withStackAndST (p : List (Nat × Nat)) :
    drawFaults p (s.withStackAndST n k b) = drawFaults p s := rfl

theorem takeRandom_withStackAndST :
    takeRandom (s.withStackAndST n k b) = ((takeRandom s).1, (takeRandom s).2.withStackAndST n k b) := by
  simp only [takeRandom, State.withStackAndST]
  split <;> rfl

end

/-- An instruction other than 2NNN, 00EE and FX18 carries any stack and any ST through unread (10_state.md R33, R34). -/
theorem exec_withStackAndST {i : Instr} {s t : State} (hcall : ∀ nnn, i ≠ .call nnn) (hret : i ≠ .ret)
    (hst : ∀ x, i ≠ .ldSTVx x) (h : exec i s = .next t) (n : Fin 17) (k : Vector Word 16) (b : Byte) :
    exec i (s.withStackAndST n k b) = .next (t.withStackAndST n k b) := by
  cases i with
  | call nnn => exact absurd rfl (hcall nnn)
  | ret => exact absurd rfl hret
  | ldSTVx x => exact absurd rfl (hst x)
  | rnd x nn =>
    cases h
    simp only [exec, execRnd, takeRandom_withStackAndST]
    rfl
  | drw x y m =>
    simp only [exec, execDrw, withStackAndST_idx, drawPixels_withStackAndST, drawFaults_withStackAndST] at h ⊢
    split at h
    · cases h
      rfl
    · split at h
      · next hd =>
        cases h
        simp only [hd]
        rfl
      · next hd =>
        cases h
        simp only [hd]
        rfl
  | skp | sknp | ldVxK | ldBVx | ldMemVx | ldVxMem =>
    simp only [exec, execSkp, execSknp, execLdVxK, execLdBVx, execLdMemVx, execLdVxMem, readV_withStackAndST,
      withStackAndST_idx, lowestKey_withStackAndST] at h ⊢
    split at h <;> cases h <;> rfl
  | _ =>
    cases h
    rfl

/-- What is carried through unread is also left unchanged: take the state's own values. -/
theorem exec_stack_st {i : Instr} {s t : State} (hcall : ∀ nnn, i ≠ .call nnn) (hret : i ≠ .ret)
    (hst : ∀ x, i ≠ .ldSTVx x) (h : exec i s = .next t) : t.sp = s.sp ∧ t.stack = s.stack ∧ t.st = s.st := by
  have own : Host.Outcome.next t = .next (t.withStackAndST s.sp s.stack s.st) :=
    h.symm.trans (exec_withStackAndST hcall hret hst h s.sp s.stack s.st)
  rw [Host.Outcome.next.inj own]
  exact ⟨rfl, rfl, rfl⟩

/-- An instruction other than 2NNN and 00EE leaves the stack unchanged and unread (10_state.md R33). -/
theorem exec_stack {i : Instr} {s t : State} (hcall : ∀ nnn, i ≠ .call nnn) (hret : i ≠ .ret) (h : exec i s = .next t) :
    t.sp = s.sp ∧ t.stack = s.stack ∧ ∀ (n : Fin 17) (k : Vector Word 16),
      exec i { s with sp := n, stack := k } = .next { t with sp := n, stack := k } := by
  by_cases hi : ∃ x, i = .ldSTVx x
  · obtain ⟨x, rfl⟩ := hi
    cases h
    exact ⟨rfl, rfl, fun _ _ => rfl⟩
  · have hst : ∀ x, i ≠ .ldSTVx x := fun x hx => hi ⟨x, hx⟩
    obtain ⟨hsp, hstack, hstT⟩ := exec_stack_st hcall hret hst h
    refine ⟨hsp, hstack, fun n k => (exec_withStackAndST hcall hret hst h n k s.st).trans ?_⟩
    rw [State.withStackAndST, ← hstT]

/-! ### CALL and RET -/

/-- The three ways an instruction can stand to the stack (10_state.md R33). -/
theorem ret_or_call_or_neither (i : Instr) :
    i = .ret ∨ (∃ nnn, i = .call nnn) ∨ ((∀ nnn, i ≠ .call nnn) ∧ i ≠ .ret) := by
  cases i <;> simp

theorem exec_ret_of_pos {s : State} (hs : 0 < s.sp.val) :
    exec .ret s = .next (jumpTo (returnTarget s s.stack[s.sp.val - 1]) { s with sp := ⟨s.sp.val - 1, by omega⟩ }) := by
  simp [exec, execRet, pop, hs]

theorem exec_ret_of_empty {s : State} (hs : s.sp.val = 0) : exec .ret s = .next (raiseIn .stackUnderflow .ret s) := by
  simp only [exec, execRet, pop_eq_none.2 hs]

theorem exec_call_of_room (nnn : Addr12) {s : State} (hs : s.sp.val < 16) :
    exec (.call nnn) s = .next (jumpTo (nnn.setWidth 16)
      { s with stack := s.stack.set s.sp.val (callPushes s), sp := ⟨s.sp.val + 1, by omega⟩ }) := by
  simp [exec, execCall, push, hs]

theorem exec_call_of_full (nnn : Addr12) {s : State} (hs : s.sp.val = 16) :
    exec (.call nnn) s = .next (raiseIn .stackOverflow (.call nnn) s) := by
  simp only [exec, execCall, push_eq_none.2 hs]

/-- Settles O23: an instruction that carries any stack through unread leaves its own stack unchanged; RET writes SP only. -/
theorem onlyCallAndReturnTouchStack : Obligations.OnlyCallAndReturnTouchStack := by
  refine ⟨fun i s hcall hret => ?_, fun s => ?_⟩
  · obtain ⟨t, ht⟩ := exec_total i s
    exact ⟨t, ht, exec_stack hcall hret ht⟩
  · rcases Nat.eq_zero_or_pos s.sp.val with hs | hs
    · exact ⟨_, exec_ret_of_empty hs, rfl⟩
    · exact ⟨_, exec_ret_of_pos hs, rfl⟩

/-- An instruction other than FX18 carries any ST through unread (10_state.md R34; 60_exceptions.md R266). -/
theorem exec_withST {i : Instr} {s t : State} (hst : ∀ x, i ≠ .ldSTVx x) (h : exec i s = .next t) (b : Byte) :
    exec i { s with st := b } = .next { t with st := b } := by
  rcases ret_or_call_or_neither i with rfl | ⟨nnn, rfl⟩ | ⟨hcall, hret⟩
  · rcases Nat.eq_zero_or_pos s.sp.val with hs | hs
    · rw [exec_ret_of_empty hs] at h
      cases h
      exact exec_ret_of_empty hs
    · rw [exec_ret_of_pos hs] at h
      cases h
      exact exec_ret_of_pos (s := { s with st := b }) hs
  · rcases Nat.lt_or_eq_of_le (Nat.le_of_lt_succ s.sp.isLt) with hs | hs
    · rw [exec_call_of_room nnn hs] at h
      cases h
      exact exec_call_of_room nnn (s := { s with st := b }) hs
    · rw [exec_call_of_full nnn hs] at h
      cases h
      exact exec_call_of_full nnn hs
  · obtain ⟨hsp, hstack, _⟩ := exec_stack_st hcall hret hst h
    refine (exec_withStackAndST hcall hret hst h s.sp s.stack b).trans ?_
    rw [State.withStackAndST, ← hsp, ← hstack]

/-- Settles O24: the frame's part for I and DT; an instruction that carries any ST through unread leaves its own ST unchanged. -/
theorem indexAndTimersWrittenOnlyByTheirOwn : Obligations.IndexAndTimersWrittenOnlyByTheirOwn := by
  intro i s
  obtain ⟨t, ht⟩ := exec_total i s
  refine ⟨t, ht, (exec_frame ht).idx, (exec_frame ht).dt, fun hst => ⟨?_, exec_withST hst ht⟩⟩
  have own : Host.Outcome.next t = .next { t with st := s.st } := ht.symm.trans (exec_withST hst ht s.st)
  rw [Host.Outcome.next.inj own]

/-! ### Where an instruction leaves pc -/

/-- A fault leaves pc; every other outcome sets it as the table says (10_state.md R25). -/
theorem exec_pc {i : Instr} {s t : State} (h : exec i s = .next t) :
    (t.fault ≠ none ∧ t.pc = s.pc) ∨ (t.fault = s.fault ∧ t.pc = nextPc i s) := by
  cases i with
  | sys nnn =>
    cases h
    exact .inl ⟨nofun, rfl⟩
  | ret =>
    rcases Nat.eq_zero_or_pos s.sp.val with hs | hs
    · rw [exec_ret_of_empty hs] at h
      cases h
      exact .inl ⟨nofun, rfl⟩
    · rw [exec_ret_of_pos hs] at h
      cases h
      exact .inr ⟨rfl, by simp [nextPc, show s.sp.val - 1 < 16 by omega]⟩
  | call nnn =>
    rcases Nat.lt_or_eq_of_le (Nat.le_of_lt_succ s.sp.isLt) with hs | hs
    · rw [exec_call_of_room nnn hs] at h
      cases h
      exact .inr ⟨rfl, by simp [nextPc]⟩
    · rw [exec_call_of_full nnn hs] at h
      cases h
      exact .inl ⟨nofun, rfl⟩
  | jp | jpV0 =>
    cases h
    exact .inr ⟨rfl, by simp [nextPc, BitVec.ofNat_add]⟩
  | seVxNN | sneVxNN | seVxVy | sneVxVy =>
    cases h
    exact .inr ⟨rfl, by simp [nextPc]⟩
  | skp | sknp =>
    simp only [exec, execSkp, execSknp] at h
    split at h <;> cases h
    · next hk =>
      exact .inr ⟨rfl, by simp [nextPc, keyIndex_eq_some.1 hk]⟩
    · exact .inl ⟨nofun, rfl⟩
  | ldVxK x =>
    simp only [exec, execLdVxK] at h
    split at h <;> cases h
    · next k hk =>
      have pressed : ∃ k : Fin 16, s.keys[k.val] = true := ⟨k, (lowestKey_eq_some.1 hk).1⟩
      exact .inr ⟨rfl, by rw [nextPc, if_pos pressed]; rfl⟩
    · next hk => exact .inr ⟨rfl, by simp [nextPc, lowestKey_eq_none.1 hk]⟩
  | rnd =>
    cases h
    exact .inr (by simp [writeResult, nextPc])
  | drw x y n =>
    simp only [exec, execDrw] at h
    split at h
    · cases h
      exact .inl ⟨nofun, rfl⟩
    · split at h <;> cases h
      · exact .inl ⟨nofun, rfl⟩
      · exact .inr ⟨rfl, rfl⟩
  | ldBVx | ldMemVx | ldVxMem =>
    simp only [exec, execLdBVx, execLdMemVx, execLdVxMem] at h
    split at h <;> cases h
    · exact .inl ⟨nofun, rfl⟩
    · exact .inr ⟨rfl, rfl⟩
  | _ =>
    cases h
    exact .inr ⟨rfl, rfl⟩

/-- Settles O27: from a state with no fault the two cases of `exec_pc` are told apart by the fault. -/
theorem pcFollowsTable : Obligations.PcFollowsTable := by
  intro i s hs
  obtain ⟨t, ht⟩ := exec_total i s
  refine ⟨t, ht, ?_⟩
  rcases exec_pc ht with ⟨hf, hpc⟩ | ⟨hf, hpc⟩
  · exact ⟨fun _ => hpc, fun hn => absurd hn hf⟩
  · exact ⟨fun hn => absurd (hf.trans hs) hn, fun _ => hpc⟩

/-! ### The bound on pc -/

/-- Within reach of a fetch, pc + 2 and pc + 4 do not wrap (10_state.md R26). -/
theorem toNat_pc_add {w : Word} (hw : w.toNat ≤ 0xFFE) :
    (w + 2#16).toNat = w.toNat + 2 ∧ (w + 4#16).toNat = w.toNat + 4 := by
  simp only [BitVec.toNat_add, BitVec.toNat_ofNat]
  omega

/-- The pc table stays at most 0x10FE, the highest target of a BNNN; RET's row depends on the stack (10_state.md R26, D14). -/
theorem nextPc_le {i : Instr} {s : State} (hpc : s.pc.toNat ≤ 0xFFE) (hret : i ≠ .ret) : (nextPc i s).toNat ≤ 0x10FE := by
  obtain ⟨h2, h4⟩ := toNat_pc_add hpc
  cases i with
  | ret => exact absurd rfl hret
  | jp nnn | call nnn =>
    have := nnn.isLt
    simp only [nextPc, BitVec.toNat_ofNat]
    omega
  | jpV0 nnn =>
    have := nnn.isLt
    have := (readV s 0).isLt
    simp only [nextPc, BitVec.toNat_ofNat]
    omega
  | seVxNN | sneVxNN | seVxVy | sneVxVy | skp | sknp | ldVxK =>
    simp only [nextPc]
    split <;> omega
  | _ =>
    simp only [nextPc]
    omega

/-- The bound on `t` in terms of a machine with the same convention. -/
theorem pcBounded_of_callPush_eq {s t : State} (h : t.callPush = s.callPush) (hpc : t.pc.toNat ≤ 0x10FE)
    (hslots : ∀ k : Fin 16, k.val < t.sp.val → (returnTarget s t.stack[k.val]).toNat ≤ 0x1000) : t.pcBounded := by
  refine ⟨hpc, fun k hk => ?_⟩
  have := hslots k hk
  rwa [returnTarget, ← h] at this

/-- A RET through the slot a CALL pushed goes behind the CALL, by either convention (41_flow.md R143, D6). -/
theorem returnTarget_callPushes (s : State) : returnTarget s (callPushes s) = s.pc + 2#16 := by
  simp only [returnTarget, callPushes]
  cases s.callPush <;> rfl

/-- A return through a slot that a pop leaves occupied, or the popped one, was already bounded. -/
theorem exec_ret_pcBounded {s t : State} (hs : s.pcBounded) (h : exec .ret s = .next t) : t.pcBounded := by
  rcases Nat.eq_zero_or_pos s.sp.val with hsp | hsp
  · rw [exec_ret_of_empty hsp] at h
    cases h
    exact hs
  · rw [exec_ret_of_pos hsp] at h
    cases h
    obtain ⟨_, hslots⟩ := hs
    refine ⟨(hslots ⟨s.sp.val - 1, by omega⟩ (by simp only; omega)).trans (by omega), fun k hk => hslots k ?_⟩
    simp only [jumpTo_sp] at hk
    omega

/-- A CALL fills one slot, with a return to pc + 2. -/
theorem exec_call_pcBounded {nnn : Addr12} {s t : State} (hs : s.pcBounded) (hpc : s.pc.toNat ≤ 0xFFE)
    (h : exec (.call nnn) s = .next t) : t.pcBounded := by
  rcases Nat.lt_or_eq_of_le (Nat.le_of_lt_succ s.sp.isLt) with hsp | hsp
  · rw [exec_call_of_room nnn hsp] at h
    cases h
    refine pcBounded_of_callPush_eq (s := s) rfl ?_ fun k hk => ?_
    · have := nnn.isLt
      simp only [jumpTo_pc, BitVec.toNat_setWidth]
      omega
    · simp only [jumpTo_stack, jumpTo_sp] at hk ⊢
      by_cases hkt : k.val = s.sp.val
      · have := (toNat_pc_add hpc).1
        simp only [hkt, Vector.getElem_set_self, returnTarget_callPushes]
        omega
      · rw [Vector.getElem_set_ne _ _ (Ne.symm hkt)]
        obtain ⟨_, hslots⟩ := hs
        exact hslots k (by omega)
  · rw [exec_call_of_full nnn hsp] at h
    cases h
    exact hs

/-- Every instruction a cycle can fetch keeps the bound: CALL and RET by their slots, the others by the pc table, with the stack
unchanged. -/
theorem exec_pcBounded {i : Instr} {s t : State} (hs : s.pcBounded) (hpc : s.pc.toNat ≤ 0xFFE) (h : exec i s = .next t) :
    t.pcBounded := by
  rcases ret_or_call_or_neither i with rfl | ⟨nnn, rfl⟩ | ⟨hcall, hret⟩
  · exact exec_ret_pcBounded hs h
  · exact exec_call_pcBounded hs hpc h
  · obtain ⟨hpcS, hslots⟩ := hs
    obtain ⟨hsp, hstack, _⟩ := exec_stack hcall hret h
    refine pcBounded_of_callPush_eq (exec_sameHostFields h).callPush ?_ fun k hk => ?_
    · rcases exec_pc h with ⟨_, he⟩ | ⟨_, he⟩ <;> rw [he]
      · exact hpcS
      · exact nextPc_le hpc hret
    · simp only [hstack]
      exact hslots k (hsp ▸ hk)

/-- Settles O20: a cycle that fetches has pc at most 0xFFE, from where every instruction keeps the bound; a fault entry and the tick
touch neither pc nor the stack. -/
theorem pcStaysBounded : Obligations.PcStaysBounded := by
  intro s hs
  obtain ⟨t, ht⟩ := step_total s
  exact ⟨t, ht, step_preserves ht hs (fun _ _ => hs) (fun _ _ ⟨_, hpc, _⟩ hu => exec_pcBounded hs hpc hu) fun _ hu => hu⟩

/-! ### Reset -/

theorem pcBounded_at_programStart {s : State} (hpc : s.pc = 0x200#16) (hsp : s.sp = 0) : s.pcBounded :=
  ⟨by rw [hpc]; decide, fun k hk => by simp [hsp] at hk⟩

/-- Settles O21: Reset writes every byte into the empty memory and leaves pc at 0x200 with no slot occupied. -/
theorem invariantsHoldAtReset : Obligations.InvariantsHoldAtReset :=
  ⟨⟨Memory.wf_nil, pcBounded_at_programStart rfl rfl⟩, fun _ _ =>
    ⟨Memory.writeList_wf 0 _ Memory.wf_nil, pcBounded_at_programStart rfl rfl⟩⟩

/-- After Reset an address reads as its byte of the font followed by `InitMem` (10_state.md R49). -/
theorem hostReset_read (p : ResetParams) (s : State) {a : Nat} (h : a < (p.font.toList ++ p.initMem.toList).length) :
    (hostReset p s).mem.read a = (p.font.toList ++ p.initMem.toList)[a] := by
  have := Memory.read_writeList_at (a := 0) (p.font.toList ++ p.initMem.toList) Memory.wf_nil (by simp) h
  rwa [Nat.zero_add] at this

/-- Settles O58: memory by `hostReset_read`, every other field by Reset's own record. -/
theorem resetEstablishesResetValues : Obligations.ResetEstablishesResetValues := by
  intro p s
  refine ⟨fun a h => ?_, fun a h => ?_, fun r => ?_, rfl, rfl, fun k => ?_, rfl, rfl, rfl, Frame.pixel_clear, rfl, rfl, rfl⟩
  · rw [hostReset_read p s (by simp; omega), List.getElem_append_left (by simpa using h)]
    simp
  · rw [hostReset_read p s (by simp; omega), List.getElem_append_right (by simp)]
    simp
  · simp [readV, hostReset]
  · simp [hostReset]

/-- Writing what unlisted addresses read as leaves the empty memory empty. -/
theorem Memory.writeList_nil_of_unlisted {a : Nat} {ws : List Byte}
    (h : ∀ k (hk : k < ws.length), ws[k] = unlistedByte (a + k)) :
    Memory.writeList [] a ws = [] := by
  induction ws generalizing a with
  | nil => rfl
  | cons w ws ih =>
    have hw : w = unlistedByte a := h 0 (by simp)
    have hput : Memory.write [] a w = [] := by simp [Memory.write, Memory.put, hw]
    rw [Memory.writeList, hput]
    refine ih fun k hk => ?_
    rw [show a + 1 + k = a + (k + 1) by omega]
    exact h (k + 1) (Nat.succ_lt_succ hk)

/-- The parameters of the Reset that leaves `State.reset`: the default font, zero bytes above it, the default draw flag and keys
(assumption log 2-5). -/
def ResetParams.default : ResetParams :=
  { font := ⟨fontBytes.toArray, rfl⟩
    initMem := Vector.replicate 4016 0#8
    drawFlag := defaultDrawFlag
    keys := defaultKeys }

/-- The default bytes are those unlisted addresses read as. -/
theorem ResetParams.default_bytes (a : Nat)
    (h : a < (ResetParams.default.font.toList ++ ResetParams.default.initMem.toList).length) :
    (ResetParams.default.font.toList ++ ResetParams.default.initMem.toList)[a] = unlistedByte a := by
  have hfont : ResetParams.default.font.toList = fontBytes := rfl
  have hinit : ResetParams.default.initMem.toList = List.replicate 4016 0#8 := Vector.toList_replicate
  have hlen : fontBytes.length = 80 := rfl
  simp only [hfont, hinit, unlistedByte, List.getD_eq_getElem?_getD]
  rcases Nat.lt_or_ge a 80 with ha | ha
  · rw [List.getElem_append_left (by omega), List.getElem?_eq_getElem (by omega), Option.getD_some]
  · rw [List.getElem_append_right (by omega), List.getElem?_eq_none (by omega), Option.getD_none, List.getElem_replicate]

/-- Settles O59: the Reset with `ResetParams.default` writes no byte that memory has to list. -/
theorem resetStateIsAReset : Obligations.ResetStateIsAReset := by
  refine ⟨ResetParams.default, ?_, rfl, fun a h => by simp [ResetParams.default]⟩
  have hmem : Memory.writeList [] 0 (ResetParams.default.font.toList ++ ResetParams.default.initMem.toList) = [] :=
    Memory.writeList_nil_of_unlisted fun k hk => by rw [ResetParams.default_bytes k hk, Nat.zero_add]
  simp only [hostReset, hmem]
  rfl

end Sys2Proof.Machine

/-! Proofs for the family of 20_memory.md: what every instruction does to memory, and that stored bytes are fetched. -/

namespace Sys2Proof.Machine

/-! ### What an instruction does to memory -/

/-- The bytes an instruction stores from I up: the digits of FX33, the registers of FX55, none for every other (20_memory.md R68). -/
def storedBytes (i : Instr) (s : State) : List Byte :=
  match i with
  | .ldBVx x => bcdDigits (readV s x)
  | .ldMemVx x => registersTo s x
  | _ => []

@[simp] theorem storedBytes_ldBVx (x : Reg) (s : State) : storedBytes (.ldBVx x) s = bcdDigits (readV s x) := rfl
@[simp] theorem storedBytes_ldMemVx (x : Reg) (s : State) : storedBytes (.ldMemVx x) s = registersTo s x := rfl

@[simp] theorem length_bcdDigits (b : Byte) : (bcdDigits b).length = 3 := rfl

/-- `storesTo` is the range of the stored bytes. -/
theorem storesTo_iff {i : Instr} {s : State} {a : Nat} :
    storesTo i s a = true ↔ s.idx.toNat ≤ a ∧ a < s.idx.toNat + (storedBytes i s).length := by
  cases i with
  | ldBVx | ldMemVx =>
    simp only [storesTo, Bool.and_eq_true, decide_eq_true_eq, storedBytes_ldBVx, storedBytes_ldMemVx, length_bcdDigits,
      length_registersTo]
  | _ => exact ⟨nofun, fun ⟨hlo, hhi⟩ => absurd hhi (Nat.not_lt.2 hlo)⟩

/-- Every instruction stores all its bytes from I up, or, when one of them would pass 0xFFF, leaves memory as it was
(20_memory.md R68, R69). -/
theorem exec_mem {i : Instr} {s t : State} (h : exec i s = .next t) :
    (4096 < s.idx.toNat + (storedBytes i s).length ∧ t.mem = s.mem) ∨
      t.mem = s.mem.writeList s.idx.toNat (storedBytes i s) := by
  cases i with
  | ldBVx x =>
    simp only [exec, execLdBVx] at h
    split at h <;> cases h
    · next hr => exact .inl ⟨(rangeFault_eq_some.1 hr).2.1, rfl⟩
    · exact .inr rfl
  | ldMemVx x =>
    simp only [exec, execLdMemVx] at h
    split at h <;> cases h
    · next hr =>
      rw [storedBytes_ldMemVx, length_registersTo]
      exact .inl ⟨(rangeFault_eq_some.1 hr).2.1, rfl⟩
    · exact .inr rfl
  | ret =>
    simp only [exec, execRet] at h
    split at h <;> cases h
    · next hp =>
      obtain ⟨_, _, rfl⟩ := pop_eq_some hp
      exact .inr rfl
    · exact .inr rfl
  | call nnn =>
    simp only [exec, execCall] at h
    split at h <;> cases h
    · next hp =>
      obtain ⟨_, rfl⟩ := push_eq_some hp
      exact .inr rfl
    · exact .inr rfl
  | rnd x nn =>
    cases h
    exact .inr (takeRandom_mem s)
  | drw x y n =>
    simp only [exec, execDrw] at h
    split at h
    · cases h
      exact .inr rfl
    · split at h <;> cases h <;> exact .inr rfl
  | skp | sknp | ldVxK | ldVxMem =>
    simp only [exec, execSkp, execSknp, execLdVxK, execLdVxMem] at h
    split at h <;> cases h <;> exact .inr rfl
  | _ =>
    cases h
    exact .inr rfl

/-- No instruction breaks the canonical form of memory. -/
theorem exec_mem_wf {i : Instr} {s t : State} (hs : s.mem.wf = true) (h : exec i s = .next t) : t.mem.wf = true := by
  rcases exec_mem h with ⟨_, he⟩ | he <;> rw [he]
  · exact hs
  · exact Memory.writeList_wf _ _ hs

theorem hostLoad_mem_of_fits {rom : List Byte} (s : State) (h : rom.length ≤ 3584) :
    (hostLoad rom s).2.mem = s.mem.writeList 0x200 rom := by
  rw [hostLoad, if_neg (by simpa using h)]

/-- Load keeps the canonical form of memory, whether or not the ROM fits. -/
theorem hostLoad_mem_wf (rom : List Byte) {s : State} (hs : s.mem.wf = true) : (hostLoad rom s).2.mem.wf = true := by
  unfold hostLoad
  split
  · exact hs
  · exact Memory.writeList_wf _ rom hs

/-- Settles O19: a cycle changes memory only by an instruction's stores, and these, Load and a one-byte write keep the canonical
form. -/
theorem memoryStaysCanonical : Obligations.MemoryStaysCanonical := by
  refine ⟨fun s hs => ?_, fun rom _ hs => hostLoad_mem_wf rom hs, fun _ a w hm => Memory.write_wf a w hm⟩
  obtain ⟨t, ht⟩ := step_total s
  exact ⟨t, ht, step_preserves (P := fun u => u.mem.wf = true) ht hs (fun _ _ => hs) (fun _ _ _ hu => exec_mem_wf hs hu)
    fun _ hu => hu⟩

/-- Settles O26: the stored bytes are the only ones `exec_mem` lets change, and `storesTo` is true of their addresses. -/
theorem memoryOutsideStoresUnchanged : Obligations.MemoryOutsideStoresUnchanged := by
  intro i s
  obtain ⟨t, ht⟩ := exec_total i s
  refine ⟨t, ht, fun a ha => ?_⟩
  rcases exec_mem ht with ⟨_, he⟩ | he
  · rw [he]
  · have hout : ¬ (s.idx.toNat ≤ a ∧ a < s.idx.toNat + (storedBytes i s).length) := fun hin => by
      simp [storesTo_iff.2 hin] at ha
    rw [he, Memory.read_writeList_other _ _ (by omega)]

/-! ### Fetch -/

/-- Settles O11: quotient and remainder by 256 of the fetched opcode are its two bytes. -/
theorem fetchIsBigEndian : Obligations.FetchIsBigEndian := by
  intro s hpc
  refine ⟨_, fetch_eq_some.2 ⟨hpc, rfl⟩, ?_⟩
  have := (s.mem.read (s.pc.toNat + 1)).isLt
  rw [opcodeOfBytes_toNat]
  omega

/-- Two neighbouring bytes of a run written to valid addresses are the opcode fetched there (20_memory.md R73). -/
theorem fetch_of_mem_eq_writeList {m : Memory} {a k : Nat} {ws : List Byte} {u : State} (hm : m.wf = true)
    (ha : a + ws.length ≤ 4096) (hk : k + 1 < ws.length) (hmem : u.mem = m.writeList a ws) (hpc : u.pc.toNat = a + k) :
    fetch u = some (opcodeOfBytes ws[k] ws[k + 1]) := by
  refine fetch_eq_some.2 ⟨by omega, ?_⟩
  rw [hmem, hpc, Nat.add_assoc, Memory.read_writeList_at ws hm ha, Memory.read_writeList_at ws hm ha hk]

/-- Two neighbouring bytes an instruction stored are the opcode fetched there (70_reset_and_hazards.md R291). -/
theorem fetch_of_stored {i : Instr} {s t u : State} {k : Nat} (hs : s.mem.wf = true) (h : exec i s = .next t)
    (ha : s.idx.toNat + (storedBytes i s).length ≤ 4096) (hk : k + 1 < (storedBytes i s).length) (hmem : u.mem = t.mem)
    (hpc : u.pc.toNat = s.idx.toNat + k) :
    fetch u = some (opcodeOfBytes (storedBytes i s)[k] (storedBytes i s)[k + 1]) := by
  rcases exec_mem h with ⟨hpast, _⟩ | he
  · omega
  · exact fetch_of_mem_eq_writeList hs ha hk (hmem.trans he) hpc

theorem opcodeOfBytes_ofNat {a b : Nat} (ha : a < 256) (hb : b < 256) :
    opcodeOfBytes (BitVec.ofNat 8 a) (BitVec.ofNat 8 b) = BitVec.ofNat 16 (a * 256 + b) := by
  rw [opcodeOfBytes, BitVec.toNat_ofNat, BitVec.toNat_ofNat, Nat.mod_eq_of_lt ha, Nat.mod_eq_of_lt hb]

/-- Settles O49: FX55 and FX33 by `fetch_of_stored`, Load by the run it writes from 0x200. -/
theorem storedBytesAreFetched : Obligations.StoredBytesAreFetched := by
  refine ⟨fun x k s t u hs hidx h hk hmem hpc => ?_, fun x s t u hs hidx h hmem => ?_,
    fun rom s u k hk hs hlen hmem hpc => ?_⟩
  · have hlen : (storedBytes (.ldMemVx x) s).length = x.val + 1 := length_registersTo s x
    have hf := fetch_of_stored (k := k.val) hs h (by omega) (by omega) hmem hpc
    simpa only [storedBytes_ldMemVx, getElem_registersTo] using hf
  · have hb := (readV s x).isLt
    have hlen : (storedBytes (.ldBVx x) s).length = 3 := length_bcdDigits _
    refine ⟨fun hpc => ?_, fun hpc => ?_⟩
    · rw [← opcodeOfBytes_ofNat (by omega) (by omega)]
      exact fetch_of_stored (k := 0) hs h (by omega) (by omega) hmem hpc
    · rw [← opcodeOfBytes_ofNat (by omega) (by omega)]
      exact fetch_of_stored (k := 1) hs h (by omega) (by omega) hmem hpc
  · exact fetch_of_mem_eq_writeList hs (by omega) hk (hmem.trans (hostLoad_mem_of_fits s hlen)) hpc

end Sys2Proof.Machine

/-! Proofs for the family of 30_encoding.md: the fields of the patterns, the instruction an opcode of each row decodes to, and
everything the decoder can answer. -/

namespace Sys2Proof.Machine

/-! ### Patterns and fields (30_encoding.md R90, R92) -/

section
variable (d : Nat) (x y : Reg)

@[simp] theorem fieldNNN_patternNNN (nnn : Addr12) : fieldNNN (patternNNN d nnn) = nnn := by
  apply BitVec.eq_of_toNat_eq
  rw [fieldNNN_toNat, patternNNN, BitVec.toNat_ofNat]
  omega

@[simp] theorem fieldX_patternXNN (nn : Byte) : fieldX (patternXNN d x nn) = x := by
  have := x.isLt
  have := nn.isLt
  apply Fin.ext
  rw [fieldX_val, patternXNN, BitVec.toNat_ofNat]
  omega

@[simp] theorem fieldNN_patternXNN (nn : Byte) : fieldNN (patternXNN d x nn) = nn := by
  apply BitVec.eq_of_toNat_eq
  rw [fieldNN_toNat, patternXNN, BitVec.toNat_ofNat]
  omega

variable {n : Nat} (hn : n < 16)
include hn

@[simp] theorem fieldX_hexDigits : fieldX (hexDigits d x.val y.val n) = x := by
  have := x.isLt
  have := y.isLt
  apply Fin.ext
  rw [fieldX_val, hexDigits, BitVec.toNat_ofNat]
  omega

@[simp] theorem fieldY_hexDigits : fieldY (hexDigits d x.val y.val n) = y := by
  have := y.isLt
  apply Fin.ext
  rw [fieldY_val, hexDigits, BitVec.toNat_ofNat]
  omega

end

@[simp] theorem fieldN_hexDigits (d : Nat) (x y : Reg) (n : Nibble) : fieldN (hexDigits d x.val y.val n.toNat) = n := by
  apply BitVec.eq_of_toNat_eq
  rw [fieldN_toNat, hexDigits, BitVec.toNat_ofNat]
  omega

/-- The word of a SYS that is neither CLS nor RET is read as that SYS (30_encoding.md R98). -/
theorem decodeFamily0_patternNNN {nnn : Addr12} (h : (Instr.sys nnn).wf = true) :
    decodeFamily0 (patternNNN 0 nnn) = .sys nnn := by
  have hne : ∀ w : Word, patternNNN 0 nnn = w → nnn = fieldNNN w := fun w hw => by rw [← hw, fieldNNN_patternNNN]
  simp only [Instr.wf, Bool.and_eq_true, bne_iff_ne] at h
  obtain ⟨hcls, hret⟩ := h
  rw [decodeFamily0, if_neg fun hw => hcls (hne 0x00E0#16 hw), if_neg fun hw => hret (hne 0x00EE#16 hw), fieldNNN_patternNNN]

section
variable {op : Word} {d : Nat} (hd : op.toNat / 4096 = d)
include hd

theorem patternNNN_fieldNNN : patternNNN d (fieldNNN op) = op := by
  have := op.isLt
  apply BitVec.eq_of_toNat_eq
  rw [patternNNN_toNat (by omega), fieldNNN_toNat]
  omega

theorem patternXNN_fields : patternXNN d (fieldX op) (fieldNN op) = op := by
  have := op.isLt
  apply BitVec.eq_of_toNat_eq
  rw [patternXNN_toNat (by omega), fieldX_val, fieldNN_toNat]
  omega

theorem patternXNN_fieldX {nn : Byte} (hnn : op.toNat % 256 = nn.toNat) : patternXNN d (fieldX op) nn = op := by
  rw [← BitVec.eq_of_toNat_eq ((fieldNN_toNat op).trans hnn), patternXNN_fields hd]

theorem hexDigits_fields {n : Nat} (hn : op.toNat % 16 = n) : hexDigits d (fieldX op).val (fieldY op).val n = op := by
  have := op.isLt
  apply BitVec.eq_of_toNat_eq
  rw [hexDigits_toNat (by omega) (fieldX op).isLt (fieldY op).isLt (by omega), fieldX_val, fieldY_val]
  omega

end

/-! ### The rows of the opcode map (30_encoding.md R96) -/

/-- The instruction that an opcode of `i`'s row stands for: the opcode's fields for the operands, whatever operands `i` has. The row
of SYS holds CLS and RET too (30_encoding.md R92, R96, R98). -/
def ofRow : Instr → Word → Instr
  | .sys _, op => decodeFamily0 op
  | .cls, _ => .cls
  | .ret, _ => .ret
  | .jp _, op => .jp (fieldNNN op)
  | .call _, op => .call (fieldNNN op)
  | .seVxNN _ _, op => .seVxNN (fieldX op) (fieldNN op)
  | .sneVxNN _ _, op => .sneVxNN (fieldX op) (fieldNN op)
  | .seVxVy _ _, op => .seVxVy (fieldX op) (fieldY op)
  | .ldVxNN _ _, op => .ldVxNN (fieldX op) (fieldNN op)
  | .addVxNN _ _, op => .addVxNN (fieldX op) (fieldNN op)
  | .ldVxVy _ _, op => .ldVxVy (fieldX op) (fieldY op)
  | .orVxVy _ _, op => .orVxVy (fieldX op) (fieldY op)
  | .andVxVy _ _, op => .andVxVy (fieldX op) (fieldY op)
  | .xorVxVy _ _, op => .xorVxVy (fieldX op) (fieldY op)
  | .addVxVy _ _, op => .addVxVy (fieldX op) (fieldY op)
  | .subVxVy _ _, op => .subVxVy (fieldX op) (fieldY op)
  | .shrVx _ _, op => .shrVx (fieldX op) (fieldY op)
  | .subnVxVy _ _, op => .subnVxVy (fieldX op) (fieldY op)
  | .shlVx _ _, op => .shlVx (fieldX op) (fieldY op)
  | .sneVxVy _ _, op => .sneVxVy (fieldX op) (fieldY op)
  | .ldI _, op => .ldI (fieldNNN op)
  | .jpV0 _, op => .jpV0 (fieldNNN op)
  | .rnd _ _, op => .rnd (fieldX op) (fieldNN op)
  | .drw _ _ _, op => .drw (fieldX op) (fieldY op) (fieldN op)
  | .skp _, op => .skp (fieldX op)
  | .sknp _, op => .sknp (fieldX op)
  | .ldVxDT _, op => .ldVxDT (fieldX op)
  | .ldVxK _, op => .ldVxK (fieldX op)
  | .ldDTVx _, op => .ldDTVx (fieldX op)
  | .ldSTVx _, op => .ldSTVx (fieldX op)
  | .addIVx _, op => .addIVx (fieldX op)
  | .ldFVx _, op => .ldFVx (fieldX op)
  | .ldBVx _, op => .ldBVx (fieldX op)
  | .ldMemVx _, op => .ldMemVx (fieldX op)
  | .ldVxMem _, op => .ldVxMem (fieldX op)

/-- Every row of the opcode map selects its instruction (30_encoding.md R96). -/
theorem selectsRow_opcodeRow (i : Instr) : SelectsRow (opcodeRow i).1 (opcodeRow i).2 (ofRow i) := by
  cases i with
  | sys => exact selectsRow_F000 (k := 0) rfl fun _ => decode_of_family0
  | cls | ret =>
    intro op h
    rw [opcodeRow, and_FFFF] at h
    exact h ▸ rfl
  | jp => exact selectsRow_F000 (k := 1) rfl fun _ => decode_of_family1
  | call => exact selectsRow_F000 (k := 2) rfl fun _ => decode_of_family2
  | seVxNN => exact selectsRow_F000 (k := 3) rfl fun _ => decode_of_family3
  | sneVxNN => exact selectsRow_F000 (k := 4) rfl fun _ => decode_of_family4
  | seVxVy =>
    exact selectsRow_F00F (k := 5) (by simp [opcodeRow]) fun op hd hn => by
      simp [decode_of_family5 hd, hn, opcodeRow, ofRow]
  | ldVxNN => exact selectsRow_F000 (k := 6) rfl fun _ => decode_of_family6
  | addVxNN => exact selectsRow_F000 (k := 7) rfl fun _ => decode_of_family7
  | ldVxVy | orVxVy | andVxVy | xorVxVy | addVxVy | subVxVy | shrVx | subnVxVy | shlVx =>
    exact selectsRow_F00F (k := 8) (by simp [opcodeRow]) fun op hd hn => by
      simp [decode_of_family8 hd, decodeFamily8_eq, hn, opcodeRow, ofRow]
  | sneVxVy =>
    exact selectsRow_F00F (k := 9) (by simp [opcodeRow]) fun op hd hn => by
      simp [decode_of_family9 hd, hn, opcodeRow, ofRow]
  | ldI => exact selectsRow_F000 (k := 10) rfl fun _ => decode_of_family10
  | jpV0 => exact selectsRow_F000 (k := 11) rfl fun _ => decode_of_family11
  | rnd => exact selectsRow_F000 (k := 12) rfl fun _ => decode_of_family12
  | drw => exact selectsRow_F000 (k := 13) rfl fun _ => decode_of_family13
  | skp | sknp =>
    exact selectsRow_F0FF (k := 14) (by simp [opcodeRow]) fun op hd hn => by
      simp [decode_of_family14 hd, decodeFamilyE_eq, hn, opcodeRow, ofRow]
  | ldVxDT | ldVxK | ldDTVx | ldSTVx | addIVx | ldFVx | ldBVx | ldMemVx | ldVxMem =>
    exact selectsRow_F0FF (k := 15) (by simp [opcodeRow]) fun op hd hn => by
      simp [decode_of_family15 hd, decodeFamilyF_eq, hn, opcodeRow, ofRow]

/-- The word of a well-formed instruction is an opcode of its row. -/
theorem encode_matchesRow : ∀ i : Instr, Laws.RowMatches.Statement i
  | .sys nnn => Laws.RowMatches.sys nnn
  | .cls => Laws.RowMatches.cls
  | .ret => Laws.RowMatches.ret
  | .jp nnn => Laws.RowMatches.jp nnn
  | .call nnn => Laws.RowMatches.call nnn
  | .seVxNN x nn => Laws.RowMatches.seVxNN x nn
  | .sneVxNN x nn => Laws.RowMatches.sneVxNN x nn
  | .seVxVy x y => Laws.RowMatches.seVxVy x y
  | .ldVxNN x nn => Laws.RowMatches.ldVxNN x nn
  | .addVxNN x nn => Laws.RowMatches.addVxNN x nn
  | .ldVxVy x y => Laws.RowMatches.ldVxVy x y
  | .orVxVy x y => Laws.RowMatches.orVxVy x y
  | .andVxVy x y => Laws.RowMatches.andVxVy x y
  | .xorVxVy x y => Laws.RowMatches.xorVxVy x y
  | .addVxVy x y => Laws.RowMatches.addVxVy x y
  | .subVxVy x y => Laws.RowMatches.subVxVy x y
  | .shrVx x y => Laws.RowMatches.shrVx x y
  | .subnVxVy x y => Laws.RowMatches.subnVxVy x y
  | .shlVx x y => Laws.RowMatches.shlVx x y
  | .sneVxVy x y => Laws.RowMatches.sneVxVy x y
  | .ldI nnn => Laws.RowMatches.ldI nnn
  | .jpV0 nnn => Laws.RowMatches.jpV0 nnn
  | .rnd x nn => Laws.RowMatches.rnd x nn
  | .drw x y n => Laws.RowMatches.drw x y n
  | .skp x => Laws.RowMatches.skp x
  | .sknp x => Laws.RowMatches.sknp x
  | .ldVxDT x => Laws.RowMatches.ldVxDT x
  | .ldVxK x => Laws.RowMatches.ldVxK x
  | .ldDTVx x => Laws.RowMatches.ldDTVx x
  | .ldSTVx x => Laws.RowMatches.ldSTVx x
  | .addIVx x => Laws.RowMatches.addIVx x
  | .ldFVx x => Laws.RowMatches.ldFVx x
  | .ldBVx x => Laws.RowMatches.ldBVx x
  | .ldMemVx x => Laws.RowMatches.ldMemVx x
  | .ldVxMem x => Laws.RowMatches.ldVxMem x

/-- The fields of the word of a well-formed instruction are its operands. -/
theorem ofRow_encode {i : Instr} (h : i.wf = true) : ofRow i (encode i) = i := by
  cases i with
  | sys nnn => exact decodeFamily0_patternNNN h
  | drw x y n =>
    have := n.isLt
    simp [ofRow, encode, this]
  | _ => simp [ofRow, encode]

/-- The word of a well-formed instruction decodes to it: it is an opcode of its row, and its fields are the operands. -/
theorem decode_encode {i : Instr} (h : i.wf = true) : decode (encode i) = .ok i := by
  rw [selectsRow_opcodeRow i _ (encode_matchesRow i h), ofRow_encode h]

/-- Settles O1: `decode_encode`, and the two bytes of a word make the word again. -/
theorem decodeOfEncodeIsInstruction : Obligations.DecodeOfEncodeIsInstruction := fun i rest h => by
  refine ⟨decode_encode h, ?_⟩
  simp only [encodeBytes, List.cons_append, List.nil_append, decodeBytes, opcodeOfBytes_bytes, decode_encode h]

/-! ### Everything the decoder can answer (30_encoding.md R95, R99) -/

/-- What an answer of the decoder says of the opcode: an instruction is well formed, is written as that opcode, and the opcode is
legal; a rejected opcode is one of the table (30_encoding.md R96, R99). -/
def SoundAnswer (op : Word) : Except Reject Instr → Prop
  | .ok i => i.wf = true ∧ encode i = op ∧ illegalOpcode op = false
  | .error _ => illegalOpcode op = true

/-- One comparison of a function code: an instruction if it holds, else the answer of the comparisons after it. -/
theorem soundAnswer_ite {op : Word} {c : Prop} [Decidable c] {i : Instr} {rest : Except Reject Instr}
    (hpos : c → SoundAnswer op (.ok i)) (hneg : ¬ c → SoundAnswer op rest) : SoundAnswer op (if c then .ok i else rest) := by
  split
  · next hc => exact hpos hc
  · next hc => exact hneg hc

/-- The families without a function code have no illegal opcodes. -/
theorem legal_of_family {op : Word} {d : Nat} (hd : op.toNat / 4096 = d) (h : d ∉ [5, 8, 9, 14, 15]) :
    illegalOpcode op = false := by
  subst hd
  simp only [List.mem_cons, List.not_mem_nil, not_or, or_false] at h
  simp [illegalOpcode, h]

theorem soundAnswer_family0 {op : Word} (hd : op.toNat / 4096 = 0) : SoundAnswer op (.ok (decodeFamily0 op)) := by
  have hlegal := legal_of_family hd (by decide)
  unfold decodeFamily0
  split_ifs with hcls hret
  · exact ⟨rfl, hcls.symm, hlegal⟩
  · exact ⟨rfl, hret.symm, hlegal⟩
  · have hop : patternNNN 0 (fieldNNN op) = op := patternNNN_fieldNNN hd
    have hne : ∀ a : Addr12, fieldNNN op = a → op = patternNNN 0 a := fun a ha => ha ▸ hop.symm
    refine ⟨?_, hop, hlegal⟩
    simp only [Instr.wf, Bool.and_eq_true, bne_iff_ne]
    exact ⟨fun hf => hcls (hne _ hf), fun hf => hret (hne _ hf)⟩

/-- Families 5 and 9 ask for the function nibble 0. -/
theorem soundAnswer_fixedNibble {op : Word} {d : Nat} {i : Instr} {r : Reject} (hd : op.toNat / 4096 = d)
    (hill : illegalOpcode op = (op.toNat % 16 != 0)) (hwf : i.wf = true)
    (henc : encode i = hexDigits d (fieldX op).val (fieldY op).val 0) :
    SoundAnswer op (if op.toNat % 16 = 0 then .ok i else .error r) := by
  refine soundAnswer_ite (fun hn => ⟨hwf, henc.trans (hexDigits_fields hd hn), by simp [hill, hn]⟩) fun hn => ?_
  simp [SoundAnswer, hill, hn]

theorem soundAnswer_family8 {op : Word} (hd : op.toNat / 4096 = 8) : SoundAnswer op (decodeFamily8 op) := by
  rw [decodeFamily8_eq]
  iterate 9 refine soundAnswer_ite (fun hn => ⟨rfl, hexDigits_fields hd hn, by simp [illegalOpcode, hd, hn]⟩) fun _ => ?_
  have hn : op.toNat % 16 ∈ [0x8, 0x9, 0xA, 0xB, 0xC, 0xD, 0xF] := by
    simp only [List.mem_cons, List.not_mem_nil, or_false]
    omega
  simpa [SoundAnswer, illegalOpcode, hd] using hn

theorem soundAnswer_familyE {op : Word} (hd : op.toNat / 4096 = 14) : SoundAnswer op (decodeFamilyE op) := by
  rw [decodeFamilyE_eq]
  iterate 2 refine soundAnswer_ite (fun hnn => ⟨rfl, patternXNN_fieldX hd hnn, by simp [illegalOpcode, hd, hnn]⟩) fun _ => ?_
  simp [SoundAnswer, illegalOpcode, *]

theorem soundAnswer_familyF {op : Word} (hd : op.toNat / 4096 = 15) : SoundAnswer op (decodeFamilyF op) := by
  rw [decodeFamilyF_eq]
  iterate 9 refine soundAnswer_ite (fun hnn => ⟨rfl, patternXNN_fieldX hd hnn, by simp [illegalOpcode, hd, hnn]⟩) fun _ => ?_
  simp [SoundAnswer, illegalOpcode, *]

/-- Every answer of the decoder is sound, family by family (30_encoding.md R95). -/
theorem soundAnswer_decode (op : Word) : SoundAnswer op (decode op) := by
  have := op.isLt
  have hlt : op.toNat / 4096 < 16 := by omega
  interval_cases hd : op.toNat / 4096
  · exact decode_of_family0 hd ▸ soundAnswer_family0 hd
  · exact decode_of_family1 hd ▸ ⟨rfl, patternNNN_fieldNNN hd, legal_of_family hd (by decide)⟩
  · exact decode_of_family2 hd ▸ ⟨rfl, patternNNN_fieldNNN hd, legal_of_family hd (by decide)⟩
  · exact decode_of_family3 hd ▸ ⟨rfl, patternXNN_fields hd, legal_of_family hd (by decide)⟩
  · exact decode_of_family4 hd ▸ ⟨rfl, patternXNN_fields hd, legal_of_family hd (by decide)⟩
  · exact decode_of_family5 hd ▸ soundAnswer_fixedNibble hd (by simp [illegalOpcode, hd]) rfl rfl
  · exact decode_of_family6 hd ▸ ⟨rfl, patternXNN_fields hd, legal_of_family hd (by decide)⟩
  · exact decode_of_family7 hd ▸ ⟨rfl, patternXNN_fields hd, legal_of_family hd (by decide)⟩
  · exact decode_of_family8 hd ▸ soundAnswer_family8 hd
  · exact decode_of_family9 hd ▸ soundAnswer_fixedNibble hd (by simp [illegalOpcode, hd]) rfl rfl
  · exact decode_of_family10 hd ▸ ⟨rfl, patternNNN_fieldNNN hd, legal_of_family hd (by decide)⟩
  · exact decode_of_family11 hd ▸ ⟨rfl, patternNNN_fieldNNN hd, legal_of_family hd (by decide)⟩
  · exact decode_of_family12 hd ▸ ⟨rfl, patternXNN_fields hd, legal_of_family hd (by decide)⟩
  · exact decode_of_family13 hd ▸ ⟨rfl, hexDigits_fields hd (fieldN_toNat op).symm, legal_of_family hd (by decide)⟩
  · exact decode_of_family14 hd ▸ soundAnswer_familyE hd
  · exact decode_of_family15 hd ▸ soundAnswer_familyF hd

/-- A decoded opcode is the word of a well-formed instruction, and legal. -/
theorem decode_eq_ok {op : Word} {i : Instr} (h : decode op = .ok i) :
    i.wf = true ∧ encode i = op ∧ illegalOpcode op = false := by
  have hs := soundAnswer_decode op
  rwa [h] at hs

/-- An illegal opcode is rejected (30_encoding.md R99). -/
theorem decode_of_illegal {op : Word} (h : illegalOpcode op = true) : ∃ r, decode op = .error r := by
  cases hd : decode op with
  | ok i =>
    obtain ⟨_, _, hlegal⟩ := decode_eq_ok hd
    simp [hlegal] at h
  | error r => exact ⟨r, rfl⟩

/-- Settles O2: the answers of the decoder are sound. -/
theorem encodeOfDecodeIsOpcode : Obligations.EncodeOfDecodeIsOpcode := fun _ _ h => by
  obtain ⟨hwf, henc, _⟩ := decode_eq_ok h
  exact ⟨hwf, henc⟩

/-! ### The opcode map as a whole (30_encoding.md R96-R98) -/

/-- A decoded opcode is an opcode of its instruction's row: it is that instruction's word. -/
theorem matchesRow_of_decode {op : Word} {i : Instr} (h : decode op = .ok i) : op &&& (opcodeRow i).1 = (opcodeRow i).2 := by
  obtain ⟨hwf, rfl, _⟩ := decode_eq_ok h
  exact encode_matchesRow i hwf

theorem opcodeRow_mem (i : Instr) : opcodeRow i ∈ opcodeMap := by
  cases i <;> simp [opcodeRow, opcodeMap]

/-- One instruction of each row of the opcode map, in the map's order. -/
def rowInstrs : List Instr :=
  [.sys 0, .cls, .ret, .jp 0, .call 0, .seVxNN 0 0, .sneVxNN 0 0, .seVxVy 0 0, .ldVxNN 0 0, .addVxNN 0 0, .ldVxVy 0 0, .orVxVy 0 0,
    .andVxVy 0 0, .xorVxVy 0 0, .addVxVy 0 0, .subVxVy 0 0, .shrVx 0 0, .subnVxVy 0 0, .shlVx 0 0, .sneVxVy 0 0, .ldI 0, .jpV0 0,
    .rnd 0 0, .drw 0 0 0, .skp 0, .sknp 0, .ldVxDT 0, .ldVxK 0, .ldDTVx 0, .ldSTVx 0, .addIVx 0, .ldFVx 0, .ldBVx 0, .ldMemVx 0,
    .ldVxMem 0]

theorem opcodeMap_eq_map : opcodeMap = rowInstrs.map opcodeRow := rfl

/-- Every row of the map is the row of an instruction. -/
theorem exists_opcodeRow {row : Word × Word} (h : row ∈ opcodeMap) : ∃ i, opcodeRow i = row := by
  rw [opcodeMap_eq_map, List.mem_map] at h
  obtain ⟨i, _, hi⟩ := h
  exact ⟨i, hi⟩

/-- Settles O3: a matched row selects the instruction of the opcode, and a decoded opcode matches the row of its instruction. -/
theorem decodeFollowsOpcodeMap : Obligations.DecodeFollowsOpcodeMap := by
  refine ⟨fun _ _ => matchesRow_of_decode, opcodeRow_mem, fun op => ⟨fun h row hrow hmatch => ?_, fun h i hi => ?_⟩⟩
  · obtain ⟨i, rfl⟩ := exists_opcodeRow hrow
    exact h _ (selectsRow_opcodeRow i op hmatch)
  · exact h _ (opcodeRow_mem i) (matchesRow_of_decode hi)

/-- An opcode of a row other than those of SYS, CLS and RET decodes to an instruction of that row. -/
theorem decode_of_matchesRow {op : Word} {row : Word × Word} (hrow : row ∈ opcodeMap.drop 3) (hmatch : op &&& row.1 = row.2) :
    ∃ i, decode op = .ok i ∧ opcodeRow i = row := by
  obtain ⟨i, rfl⟩ := exists_opcodeRow (List.mem_of_mem_drop hrow)
  refine ⟨ofRow i op, selectsRow_opcodeRow i op hmatch, ?_⟩
  cases i with
  | sys => exact absurd hrow (by simp [opcodeRow, opcodeMap])
  | _ => rfl

/-- SYS, CLS and RET have the first three rows of the map. -/
theorem opcodeRow_decodeFamily0_not_mem (op : Word) : opcodeRow (decodeFamily0 op) ∉ opcodeMap.drop 3 := by
  unfold decodeFamily0
  split_ifs <;> simp [opcodeRow, opcodeMap]

/-- Settles O4: an opcode of a row decodes to an instruction of that row, and it decodes to only one. -/
theorem opcodeRowsAreDisjoint : Obligations.OpcodeRowsAreDisjoint := by
  refine ⟨fun op r hr q hq hmr hmq => ?_, fun op r hr h0 hmr => ?_⟩
  · obtain ⟨i, hi, rfl⟩ := decode_of_matchesRow hr hmr
    obtain ⟨j, hj, rfl⟩ := decode_of_matchesRow hq hmq
    rw [Except.ok.inj (hi.symm.trans hj)]
  · obtain ⟨i, hi, rfl⟩ := decode_of_matchesRow hr hmr
    have hsys : decode op = .ok (decodeFamily0 op) := selectsRow_opcodeRow (.sys 0) op h0
    rw [Except.ok.inj (hi.symm.trans hsys)] at hr
    exact opcodeRow_decodeFamily0_not_mem op hr

/-! ### Illegal opcodes in a cycle (30_encoding.md R99) -/

/-- The cycle that fetches a rejected opcode latches `DecodeError` and changes nothing else (40_cycle_engine.md R123). -/
theorem step_of_decode_error {s : State} {op : Word} {r : Reject} (h0 : s.fault = none) (hf : fetch s = some op)
    (hd : decode op = .error r) : step s = .next (raise .decodeError (some op) s) := by
  simp only [step, h0, hf, hd]

/-- Settles O5: an illegal opcode is rejected, a decoded one is legal, and a cycle with a rejected opcode takes `DecodeError`. -/
theorem illegalOpcodesTakeDecodeError : Obligations.IllegalOpcodesTakeDecodeError := by
  refine ⟨fun op => ⟨fun h i hi => ?_, fun h => ?_⟩, fun s h0 hpc hill => ?_⟩
  · obtain ⟨r, hr⟩ := decode_of_illegal h
    simp [hr] at hi
  · have hs := soundAnswer_decode op
    cases hd : decode op with
    | ok i => exact absurd hd (h i)
    | error r => rwa [hd] at hs
  · obtain ⟨r, hr⟩ := decode_of_illegal hill
    exact step_of_decode_error h0 (fetch_eq_some.2 ⟨hpc, rfl⟩) hr

/-- Settles O6: each written-out word is `encode` of its instruction, computed. -/
theorem writtenWordsDecode : Obligations.WrittenWordsDecode :=
  ⟨decode_encode (i := .sys 0x123#12) rfl, decode_encode (i := .cls) rfl, decode_encode (i := .ret) rfl,
    decode_encode (i := .jp 0x20A#12) rfl, decode_encode (i := .call 0x345#12) rfl,
    decode_encode (i := .seVxNN 3 0x2A#8) rfl, decode_encode (i := .sneVxNN 11 0x3C#8) rfl,
    decode_encode (i := .seVxVy 10 11) rfl, decode_encode (i := .ldVxNN 15 0x12#8) rfl,
    decode_encode (i := .addVxNN 14 0x34#8) rfl, decode_encode (i := .shrVx 10 5) rfl,
    decode_encode (i := .sneVxVy 12 13) rfl, decode_encode (i := .ldI 0x9BC#12) rfl,
    decode_encode (i := .jpV0 0x678#12) rfl, decode_encode (i := .rnd 1 0xF0#8) rfl,
    decode_encode (i := .drw 1 2 0x5#4) rfl, decode_encode (i := .skp 2) rfl, decode_encode (i := .ldVxMem 2) rfl⟩

end Sys2Proof.Machine

/-! Proofs for the family of 40_cycle_engine.md: what a cycle does in each case of its start, how it ends, what a fault leaves, and
what the random byte can reach. -/

namespace Sys2Proof.Machine

/-- Settles O8: both totalities are the lemmas the other proofs use. -/
theorem everyCycleAnswersNext : Obligations.EveryCycleAnswersNext := ⟨exec_total, step_total⟩

/-! ### A cycle that executes no instruction (40_cycle_engine.md R121, R122) -/

theorem step_of_fault {s : State} (h : s.fault ≠ none) : step s = .next s := by
  obtain ⟨r, hr⟩ := Option.ne_none_iff_exists'.1 h
  simp only [step, hr]

theorem step_of_fetch_none {s : State} (h0 : s.fault = none) (hf : fetch s = none) :
    step s = .next (raise .fetchOutOfRange none s) := by
  simp only [step, h0, hf]

theorem run_of_fault {s : State} (h : s.fault ≠ none) (n : Nat) : Host.Core.run core n s = .next s := by
  induction n with
  | zero => rfl
  | succ n ih =>
    have hstep : core.step s = .next s := step_of_fault h
    simp only [Host.Core.run, hstep, ih]

/-- Settles O9: by induction on the number of cycles, each of which leaves the state as it is. -/
theorem latchedFaultStopsTheCore : Obligations.LatchedFaultStopsTheCore := by
  intro s r n hr
  exact ⟨run_of_fault (by simp [hr]) n, hr⟩

/-- Settles O10: pc above 0xFFE is exactly where the fetch gives nothing. -/
theorem fetchFaultsAboveFFE : Obligations.FetchFaultsAboveFFE :=
  ⟨fun _ h0 hpc => step_of_fetch_none h0 (fetch_eq_none.2 hpc), fun _ hpc => ⟨_, fetch_eq_some.2 ⟨hpc, rfl⟩⟩⟩

/-! ### A cycle that executes an instruction, and its three ends (40_cycle_engine.md R124-R128) -/

section
variable {s t : State} {i : Instr}

theorem step_of_decodes (hd : Decodes s i) (h : exec i s = .next t) : step s = .next (endCycle i s t) := by
  obtain ⟨h0, op, hop, hi⟩ := (decodes_iff s i).1 hd
  simp only [step, h0, hop, hi, h]

theorem stalls_eq_false_iff : stalls i s = false ↔ (∀ x, i ≠ .ldVxK x) ∨ ∃ k : Fin 16, s.keys[k.val] = true := by
  rw [← Bool.not_eq_true, stalls_iff]
  simp [or_iff_not_imp_left]

theorem stalls_ldVxK (x : Reg) (hk : ∀ k : Fin 16, s.keys[k.val] = false) : stalls (.ldVxK x) s = true :=
  (stalls_iff _ s).2 ⟨⟨x, rfl⟩, hk⟩

theorem endCycle_of_fault (i : Instr) (s : State) (h : t.fault ≠ none) : endCycle i s t = t :=
  if_pos (Option.isSome_iff_ne_none.2 h)

theorem endCycle_of_stall (t : State) (h : stalls i s = true) : endCycle i s t = t := by
  rw [endCycle, if_pos h, ite_self]

theorem endCycle_of_completed (hf : t.fault = none) (hs : stalls i s = false) : endCycle i s t = tick t := by
  simp [endCycle, hf, hs]

theorem step_of_completed (hd : Decodes s i) (h : exec i s = .next t) (hf : t.fault = none) (hs : stalls i s = false) :
    step s = .next (tick t) := by
  rw [step_of_decodes hd h, endCycle_of_completed hf hs]

theorem exec_of_stall (h : stalls i s = true) : exec i s = .next s := by
  obtain ⟨⟨x, rfl⟩, hk⟩ := (stalls_iff i s).1 h
  simp only [exec, execLdVxK, lowestKey_eq_none.2 hk]

theorem step_of_stall (hd : Decodes s i) (h : stalls i s = true) : step s = .next s := by
  rw [step_of_decodes hd (exec_of_stall h), endCycle_of_stall s h]

end

/-- Settles O7: the end of the cycle, in its three cases. -/
theorem stepRunsDecodedInstruction : Obligations.StepRunsDecodedInstruction := by
  intro s t i hd h
  rw [step_of_decodes hd h]
  split_ifs with hf hs
  · rw [endCycle_of_fault i s hf]
  · rw [endCycle_of_stall t ((stalls_iff i s).2 hs)]
  · rw [endCycle_of_completed (not_not.1 hf) (Bool.eq_false_iff.2 (mt (stalls_iff i s).1 hs)), tick_eq]

/-- Settles O15: a stalled FX0A executes to the state itself, and the cycle ends there. -/
theorem stallLeavesStateUnchanged : Obligations.StallLeavesStateUnchanged := by
  intro s x hd hk
  exact ⟨step_of_stall hd (stalls_ldVxK x hk), ((decodes_iff _ _).1 hd).1⟩

theorem exec_jp_self {s : State} {nnn : Addr12} (h : s.pc.toNat = nnn.toNat) : exec (.jp nnn) s = .next s := by
  have hpc : nnn.setWidth 16 = s.pc := BitVec.eq_of_toNat_eq (by rw [BitVec.toNat_setWidth]; omega)
  simp only [exec, execJp, jumpTo, hpc]

/-- Settles O30: the jump to its own address changes nothing, and the cycle ends with the tick. -/
theorem selfLoopOnlyTicks : Obligations.SelfLoopOnlyTicks := by
  intro s nnn hd hpc
  rw [step_of_completed hd (exec_jp_self hpc) ((decodes_iff _ _).1 hd).1 rfl, tick_eq]

/-! ### What a fault leaves (40_cycle_engine.md R128; 60_exceptions.md R260) -/

/-- An instruction leaves the latched fault alone, or enters a fault of its own from the state it began in, never the fetch's. -/
theorem exec_fault {i : Instr} {s t : State} (h : exec i s = .next t) :
    t.fault = s.fault ∨ ∃ f, t = raiseIn f i s ∧ f ≠ .fetchOutOfRange := by
  cases i with
  | sys nnn =>
    cases h
    exact .inr ⟨_, rfl, nofun⟩
  | ret =>
    rcases Nat.eq_zero_or_pos s.sp.val with hs | hs
    · rw [exec_ret_of_empty hs] at h
      cases h
      exact .inr ⟨_, rfl, nofun⟩
    · rw [exec_ret_of_pos hs] at h
      cases h
      exact .inl rfl
  | call nnn =>
    rcases Nat.lt_or_eq_of_le (Nat.le_of_lt_succ s.sp.isLt) with hs | hs
    · rw [exec_call_of_room nnn hs] at h
      cases h
      exact .inl rfl
    · rw [exec_call_of_full nnn hs] at h
      cases h
      exact .inr ⟨_, rfl, nofun⟩
  | skp | sknp =>
    simp only [exec, execSkp, execSknp] at h
    split at h <;> cases h
    · exact .inl rfl
    · exact .inr ⟨_, rfl, nofun⟩
  | ldVxK x =>
    simp only [exec, execLdVxK] at h
    split at h <;> cases h <;> exact .inl rfl
  | rnd x nn =>
    cases h
    exact .inl (takeRandom_fault s)
  | drw x y n =>
    simp only [exec, execDrw] at h
    split at h
    · cases h
      exact .inr ⟨_, rfl, nofun⟩
    · split at h <;> cases h
      · exact .inr ⟨_, rfl, nofun⟩
      · exact .inl rfl
  | ldBVx | ldMemVx | ldVxMem =>
    simp only [exec, execLdBVx, execLdMemVx, execLdVxMem] at h
    split at h <;> cases h
    · exact .inr ⟨_, rfl, nofun⟩
    · exact .inl rfl
  | _ =>
    cases h
    exact .inl rfl

@[simp] theorem endCycle_fault (i : Instr) (s t : State) : (endCycle i s t).fault = t.fault := by
  rcases endCycle_cases i s t with ⟨he, _⟩ | ⟨he, _⟩ <;> rw [he]
  exact tick_fault t

/-- A cycle that leaves a new fault is a fault entry from its start, with the opcode it fetched; the fetch's own fault is the one
without an opcode. -/
theorem step_eq_raise {s t : State} (h0 : s.fault = none) (h : step s = .next t) (ht : t.fault ≠ none) :
    ∃ f, t = raise f (fetch s) s ∧ (fetch s = none ↔ f = .fetchOutOfRange) := by
  rcases step_cases h with ⟨hf, _⟩ | ⟨_, hop, rfl⟩ | ⟨op, _, _, hop, _, rfl⟩ | ⟨op, i, u, _, hop, hi, hu, rfl⟩
  · exact absurd h0 hf
  · exact ⟨_, by rw [hop], by simp [hop]⟩
  · exact ⟨_, by rw [hop], by simp [hop]⟩
  · rw [endCycle_fault] at ht
    rcases exec_fault hu with hsame | ⟨f, rfl, hf⟩
    · exact absurd (hsame.trans h0) ht
    · obtain ⟨_, henc, _⟩ := decode_eq_ok hi
      exact ⟨f, by rw [endCycle_of_fault i s ht, raiseIn, henc, hop], by simp [hop, hf]⟩

/-- Settles O12: such a cycle is a fault entry, whose record is read off. -/
theorem faultingCycleChangesOnlyFault : Obligations.FaultingCycleChangesOnlyFault := by
  intro s t r h0 h ht
  obtain ⟨f, rfl, hf⟩ := step_eq_raise h0 h (by simp [ht])
  cases ht
  exact ⟨rfl, rfl, rfl, hf⟩

/-- Settles O14: the tick's arithmetic, then the three ends of a cycle; a fault entry leaves the timers. -/
theorem tickDecrementsTimersOncePerCycle : Obligations.TickDecrementsTimersOncePerCycle := by
  refine ⟨fun s => ⟨_, _, rfl, tickTimer_toNat s.dt, tickTimer_toNat s.st⟩, fun s t i hd h hf hk => ?_, fun s x hd hk => ?_,
    fun s t h0 h ht => ?_⟩
  · exact step_of_completed hd h hf (stalls_eq_false_iff.2 hk)
  · exact step_of_stall hd (stalls_ldVxK x hk)
  · obtain ⟨f, rfl, _⟩ := step_eq_raise h0 h ht
    exact ⟨rfl, rfl⟩

/-! ### What a cycle does not write or read -/

/-- Settles O16: the keys are a field that only the host sets. -/
theorem onlyTheHostWritesKeys : Obligations.OnlyTheHostWritesKeys := by
  refine ⟨fun s => ?_, fun _ _ => rfl⟩
  obtain ⟨t, ht⟩ := step_total s
  exact ⟨t, ht, (step_sameHostFields ht).keys⟩

/-- `s` with another environment: the bytes the host offers and the count of the free draws (10_state.md R43; assumption log 6). -/
def State.withEnvironment (q : List Byte) (d : Nat) (s : State) : State := { s with randQueue := q, draws := d }

section
variable (q : List Byte) (d : Nat) (s : State)

@[simp] theorem readV_withEnvironment (x : Reg) : readV (s.withEnvironment q d) x = readV s x := rfl
@[simp] theorem withEnvironment_idx : (s.withEnvironment q d).idx = s.idx := rfl
@[simp] theorem withEnvironment_fault : (s.withEnvironment q d).fault = s.fault := rfl
@[simp] theorem lowestKey_withEnvironment : lowestKey (s.withEnvironment q d) = lowestKey s := rfl
@[simp] theorem drawPixels_withEnvironment (x y : Reg) (n : Nibble) :
    drawPixels x y n (s.withEnvironment q d) = drawPixels x y n s := rfl
@[simp] theorem drawFaults_withEnvironment (p : List (Nat × Nat)) :
    drawFaults p (s.withEnvironment q d) = drawFaults p s := rfl

theorem endCycle_withEnvironment (i : Instr) (t : State) :
    endCycle i (s.withEnvironment q d) (t.withEnvironment q d) = (endCycle i s t).withEnvironment q d := by
  have hstalls : stalls i (s.withEnvironment q d) = stalls i s := by cases i <;> rfl
  simp only [endCycle, hstalls, withEnvironment_fault, apply_ite (State.withEnvironment q d)]
  rfl

variable {s}

/-- An instruction other than CXNN carries any environment through unread (10_state.md R45). -/
theorem exec_withEnvironment {i : Instr} {t : State} (hrnd : ∀ x nn, i ≠ .rnd x nn) (h : exec i s = .next t) :
    exec i (s.withEnvironment q d) = .next (t.withEnvironment q d) := by
  cases i with
  | rnd x nn => exact absurd rfl (hrnd x nn)
  | ret =>
    rcases Nat.eq_zero_or_pos s.sp.val with hs | hs
    · rw [exec_ret_of_empty hs] at h
      cases h
      exact exec_ret_of_empty hs
    · rw [exec_ret_of_pos hs] at h
      cases h
      exact exec_ret_of_pos (s := s.withEnvironment q d) hs
  | call nnn =>
    rcases Nat.lt_or_eq_of_le (Nat.le_of_lt_succ s.sp.isLt) with hs | hs
    · rw [exec_call_of_room nnn hs] at h
      cases h
      exact exec_call_of_room nnn (s := s.withEnvironment q d) hs
    · rw [exec_call_of_full nnn hs] at h
      cases h
      exact exec_call_of_full nnn hs
  | drw x y n =>
    simp only [exec, execDrw, withEnvironment_idx, drawPixels_withEnvironment, drawFaults_withEnvironment] at h ⊢
    split at h
    · cases h
      rfl
    · split at h <;> cases h <;> next hd => simp only [hd]; rfl
  | skp | sknp | ldVxK | ldBVx | ldMemVx | ldVxMem =>
    simp only [exec, execSkp, execSknp, execLdVxK, execLdBVx, execLdMemVx, execLdVxMem, readV_withEnvironment,
      withEnvironment_idx, lowestKey_withEnvironment] at h ⊢
    split at h <;> cases h <;> rfl
  | _ =>
    cases h
    rfl

/-- A cycle that decodes no CXNN carries any environment through unread (40_cycle_engine.md R130). -/
theorem step_withEnvironment {t : State} (hrnd : ∀ x nn, ¬ Decodes s (.rnd x nn)) (h : step s = .next t) :
    step (s.withEnvironment q d) = .next (t.withEnvironment q d) := by
  rcases step_cases h with ⟨hf, rfl⟩ | ⟨h0, hop, rfl⟩ | ⟨op, r, h0, hop, hr, rfl⟩ | ⟨op, i, u, h0, hop, hi, hu, rfl⟩
  · exact step_of_fault hf
  · exact step_of_fetch_none h0 hop
  · exact step_of_decode_error h0 hop hr
  · have hd : Decodes s i := (decodes_iff s i).2 ⟨h0, op, hop, hi⟩
    have hne : ∀ x nn, i ≠ .rnd x nn := fun x nn he => hrnd x nn (he ▸ hd)
    rw [← endCycle_withEnvironment]
    exact step_of_decodes hd (exec_withEnvironment q d hne hu)

/-- What is carried through unread is also left unchanged: take the state's own environment. -/
theorem step_keeps_environment {t : State} (hrnd : ∀ x nn, ¬ Decodes s (.rnd x nn)) (h : step s = .next t) :
    t.withEnvironment s.randQueue s.draws = t :=
  Host.Outcome.next.inj ((step_withEnvironment s.randQueue s.draws hrnd h).symm.trans h)

end

/-- Without a CXNN, `Cycle(r)` is the plain cycle, whatever r is. -/
theorem hostCycle_of_not_rnd {s : State} (hrnd : ∀ x nn, ¬ Decodes s (.rnd x nn)) (r : Byte) : hostCycle r s = step s := by
  obtain ⟨t, ht⟩ := step_total s
  have hoffer : step { s with randQueue := r :: s.randQueue } = .next (t.withEnvironment (r :: s.randQueue) s.draws) :=
    step_withEnvironment (r :: s.randQueue) s.draws hrnd ht
  simp only [hostCycle, hoffer, ht]
  exact congrArg _ (step_keeps_environment hrnd ht)

/-- A CXNN takes the byte r of `Cycle(r)`, and the environment is then as it was (42_alu.md R173). -/
theorem hostCycle_of_rnd {s : State} {x : Reg} {nn : Byte} (hd : Decodes s (.rnd x nn)) (r : Byte) :
    hostCycle r s = .next (tick (writeResult x (r &&& nn) s)) := by
  have hoffer : step { s with randQueue := r :: s.randQueue } = .next (tick (writeResult x (r &&& nn) s)) :=
    step_of_completed (i := .rnd x nn) hd rfl ((decodes_iff _ _).1 hd).1 rfl
  simp only [hostCycle, hoffer]
  rfl

/-- Settles O18: r and the free draws reach the state only through a CXNN, which takes r. -/
theorem cycleReadsRandomByteOnlyForRnd : Obligations.CycleReadsRandomByteOnlyForRnd := by
  refine ⟨fun s t r q hrnd h => ?_, fun s t r d h => ?_⟩
  · rwa [hostCycle_of_not_rnd hrnd] at h ⊢
  · by_cases hd : ∃ x nn, Decodes s (.rnd x nn)
    · obtain ⟨x, nn, hd⟩ := hd
      rw [hostCycle_of_rnd hd] at h
      cases h
      exact hostCycle_of_rnd (s := { s with draws := d }) hd r
    · simp only [not_exists] at hd
      rw [hostCycle_of_not_rnd hd] at h
      have hq : t.randQueue = s.randQueue := by rw [← step_keeps_environment hd h]; rfl
      rw [hostCycle_of_not_rnd (s := { s with draws := d }) hd]
      refine (step_withEnvironment s.randQueue d hd h).trans ?_
      rw [State.withEnvironment, ← hq]

end Sys2Proof.Machine

/-! Proofs for the family of 41_flow.md: what SYS, the jumps, CALL, RET and the register and literal skips do, each with its whole next
state. -/

namespace Sys2Proof.Machine

/-- Settles O28: of family 0 the decoder takes two whole words for CLS and RET and leaves the rest to SYS, which raises its fault. -/
theorem sysTakesDecodeError : Obligations.SysTakesDecodeError := by
  refine ⟨fun op hrow hcls hret => ?_, fun nnn s => ?_⟩
  · have hdecode : decode op = .ok (decodeFamily0 op) := selectsRow_opcodeRow (.sys 0) op hrow
    rw [hdecode, decodeFamily0, if_neg hcls, if_neg hret]
  · have hword : encode (.sys nnn) = BitVec.ofNat 16 nnn.toNat := by simp [encode, patternNNN]
    rw [← hword]
    rfl

/-! ### Jumps (41_flow.md R142, R144) -/

/-- The target of a BNNN is the sum of the integers, which does not wrap (41_flow.md R144, D14). -/
theorem toNat_jpV0_target (nnn : Addr12) (b : Byte) :
    (nnn.setWidth 16 + b.setWidth 16 : Word).toNat = nnn.toNat + b.toNat := by
  rw [BitVec.toNat_add, BitVec.toNat_setWidth_of_le (by decide), BitVec.toNat_setWidth_of_le (by decide)]
  omega

/-- Settles O29: both targets are read as integers, and the largest sum is 0xFFF + 0xFF. -/
theorem jumpsSetPc : Obligations.JumpsSetPc := by
  refine ⟨selectsRow_opcodeRow (.jp 0), selectsRow_opcodeRow (.jpV0 0), fun nnn s => ?_⟩
  have htarget := toNat_jpV0_target nnn (readV s 0)
  have hmax : nnn.toNat + (readV s 0).toNat ≤ 0x10FE := by omega
  exact ⟨_, _, rfl, BitVec.toNat_setWidth_of_le (by decide), rfl, htarget, htarget ▸ hmax⟩

/-! ### CALL and RET (41_flow.md R141, R143) -/

theorem callPushes_eq (s : State) : callPushes s = if s.callPush = .returnAddress then s.pc + 2#16 else s.pc := by
  rw [callPushes]
  cases s.callPush <;> rfl

theorem returnTarget_eq (s : State) (w : Word) : returnTarget s w = if s.callPush = .returnAddress then w else w + 2#16 := by
  rw [returnTarget]
  cases s.callPush <;> rfl

/-- Settles O31: the two outcomes of CALL, with the pushed value by the convention. -/
theorem callPushesAndJumps : Obligations.CallPushesAndJumps := by
  refine ⟨selectsRow_opcodeRow (.call 0), fun nnn s hroom => ?_, fun nnn s hfull => exec_call_of_full nnn hfull⟩
  rw [exec_call_of_room nnn hroom, callPushes_eq, BitVec.ofNat_toNat]
  rfl

/-- Settles O32: the two outcomes of RET, with the target by the convention. -/
theorem returnPopsAndJumps : Obligations.ReturnPopsAndJumps := by
  refine ⟨selectsRow_opcodeRow .ret, fun s hpos => ?_, fun s hempty => exec_ret_of_empty hempty⟩
  rw [exec_ret_of_pos hpos, returnTarget_eq]
  rfl

/-- Settles O33: the popped slot is the one the CALL filled, and the two conventions cancel in `returnTarget_callPushes`. -/
theorem returnResumesAfterCall : Obligations.ReturnResumesAfterCall := by
  intro nnn s t u hroom hcall hstack hsp hconv
  rw [exec_call_of_room nnn hroom] at hcall
  cases hcall
  simp only [jumpTo_stack, jumpTo_sp] at hstack hsp
  have hpos : 0 < u.sp.val := by simp [hsp]
  have htarget : returnTarget u u.stack[u.sp.val - 1] = s.pc + 2#16 := by
    have hslot : u.stack[u.sp.val - 1] = callPushes s := by simp [hsp, hstack]
    rw [hslot, returnTarget, hconv]
    exact returnTarget_callPushes s
  rw [exec_ret_of_pos hpos, htarget]
  simp [hsp, jumpTo]

/-! ### Register and literal skips (41_flow.md R145-R148) -/

/-- A skip on equality, as a condition on the bytes' integers. -/
theorem skipIf_beq (a b : Byte) (s : State) :
    skipIf (a == b) s = { s with pc := if a.toNat = b.toNat then s.pc + 4#16 else s.pc + 2#16 } := by
  simp [skipIf, BitVec.toNat_inj]

/-- A skip on inequality, as a condition on the bytes' integers. -/
theorem skipIf_bne (a b : Byte) (s : State) :
    skipIf (a != b) s = { s with pc := if a.toNat = b.toNat then s.pc + 2#16 else s.pc + 4#16 } := by
  simp [skipIf, BitVec.toNat_inj]

/-- Settles O34: the rows of the map, and each skip as one of the two comparisons of bytes. -/
theorem skipsTestTheirCondition : Obligations.SkipsTestTheirCondition := by
  refine ⟨selectsRow_opcodeRow (.seVxNN 0 0), selectsRow_opcodeRow (.sneVxNN 0 0), selectsRow_opcodeRow (.seVxVy 0 0),
    selectsRow_opcodeRow (.sneVxVy 0 0), fun x y nn s => ⟨?_, ?_, ?_, ?_⟩⟩
  · exact congrArg Host.Outcome.next (skipIf_beq (readV s x) nn s)
  · exact congrArg Host.Outcome.next (skipIf_bne (readV s x) nn s)
  · exact congrArg Host.Outcome.next (skipIf_beq (readV s x) (readV s y) s)
  · exact congrArg Host.Outcome.next (skipIf_bne (readV s x) (readV s y) s)

end Sys2Proof.Machine

/-! Proofs for the family of 42_alu.md: results and flags as integers, the whole next state of every instruction that writes V[X],
and the byte of CXNN. -/

namespace Sys2Proof.Machine

/-! ### Results modulo 256 (42_alu.md R160) -/

section
variable (a b : Byte)

theorem add_eq_ofNat_mod : a + b = BitVec.ofNat 8 ((a.toNat + b.toNat) % 256) := by
  simp [← BitVec.toNat_inj]

theorem sub_eq_ofNat_mod : a - b = BitVec.ofNat 8 ((a.toNat + 256 - b.toNat) % 256) := by
  apply BitVec.eq_of_toNat_eq
  simp only [BitVec.toNat_sub, BitVec.toNat_ofNat]
  omega

theorem toNat_ushiftRight_one : (a >>> 1).toNat = a.toNat / 2 := by
  simp [Nat.shiftRight_eq_div_pow]

theorem toNat_shiftLeft_one : (a <<< 1).toNat = 2 * a.toNat % 256 := by
  simp [Nat.shiftLeft_eq, Nat.mul_comm]

/-! ### The bytes written to VF (10_state.md R28) -/

theorem flagByte_carryOut : flagByte (carryOut a b) = if a.toNat + b.toNat > 255 then 1#8 else 0#8 := by
  simp [flagByte, carryOut]

theorem flagByte_noBorrow : flagByte (noBorrow a b) = if b.toNat > a.toNat then 0#8 else 1#8 := by
  simp only [flagByte, noBorrow, Bool.not_eq_true', decide_eq_false_iff_not, ite_not]

theorem toNat_flagByte (c : Bool) : (flagByte c).toNat = c.toNat := by
  cases c <;> rfl

theorem toNat_flagByte_shiftedOutRight : (flagByte (shiftedOutRight a)).toNat = a.toNat % 2 := by
  rw [toNat_flagByte, shiftedOutRight, BitVec.getLsbD, Nat.toNat_testBit, pow_zero, Nat.div_one]

theorem toNat_flagByte_shiftedOutLeft : (flagByte (shiftedOutLeft a)).toNat = a.toNat / 128 := by
  rw [toNat_flagByte, shiftedOutLeft, BitVec.getLsbD, Nat.toNat_testBit]
  omega

end

/-! ### Instructions that write V[X] only (42_alu.md R161-R166) -/

/-- Settles O35: the rows of the map; each of the five is a `writeResult` of the byte named. -/
theorem loadsAndLogicWriteOneRegister : Obligations.LoadsAndLogicWriteOneRegister :=
  ⟨selectsRow_opcodeRow (.ldVxNN 0 0), selectsRow_opcodeRow (.ldVxVy 0 0), selectsRow_opcodeRow (.orVxVy 0 0),
    selectsRow_opcodeRow (.andVxVy 0 0), selectsRow_opcodeRow (.xorVxVy 0 0), fun _ _ _ _ => ⟨rfl, rfl, rfl, rfl, rfl⟩⟩

/-- Settles O36: the byte sum is the sum of the integers modulo 256. -/
theorem addLiteralWrapsWithoutFlag : Obligations.AddLiteralWrapsWithoutFlag := by
  refine ⟨selectsRow_opcodeRow (.addVxNN 0 0), fun x nn s => ?_⟩
  rw [← add_eq_ofNat_mod]
  rfl

/-! ### Instructions that write V[X], then VF (42_alu.md R167-R172) -/

/-- Settles O37: the wrapped sum, then the carry. -/
theorem addSetsCarryFlag : Obligations.AddSetsCarryFlag := by
  refine ⟨selectsRow_opcodeRow (.addVxVy 0 0), fun x y s => ?_⟩
  rw [← add_eq_ofNat_mod, ← flagByte_carryOut]
  rfl

/-- Settles O38: the wrapped difference, then no-borrow; 8XY7 takes the operands the other way round. -/
theorem subtractsSetNotBorrowFlag : Obligations.SubtractsSetNotBorrowFlag := by
  refine ⟨selectsRow_opcodeRow (.subVxVy 0 0), selectsRow_opcodeRow (.subnVxVy 0 0), fun x y s => ⟨?_, ?_⟩⟩
  · rw [← sub_eq_ofNat_mod, ← flagByte_noBorrow]
    rfl
  · rw [← sub_eq_ofNat_mod, ← flagByte_noBorrow]
    rfl

/-- Settles O39: halving drops bit 0 and doubling bit 7, which is the byte's value divided by 128. -/
theorem shiftsSetShiftedOutBit : Obligations.ShiftsSetShiftedOutBit := by
  refine ⟨selectsRow_opcodeRow (.shrVx 0 0), selectsRow_opcodeRow (.shlVx 0 0), fun x y s => ⟨?_, ?_⟩⟩
  · rw [← toNat_ushiftRight_one, ← toNat_flagByte_shiftedOutRight, BitVec.ofNat_toNat, BitVec.ofNat_toNat]
    rfl
  · rw [← toNat_shiftLeft_one, ← toNat_flagByte_shiftedOutLeft, BitVec.ofNat_toNat, BitVec.ofNat_toNat]
    rfl

/-- VF holds the flag, which is written last; V[X] holds the result unless X is F (42_alu.md R167). -/
theorem readV_writeResultFlag (x : Reg) (r : Byte) (c : Bool) (s : State) :
    readV (writeResultFlag x r c s) 15 = flagByte c ∧ (x ≠ 15 → readV (writeResultFlag x r c s) x = r) :=
  ⟨readV_writeV_same (writeV x r s) 15 (flagByte c), fun hx =>
    (readV_setFlag_other (writeV x r s) c hx).trans (readV_writeV_same s x r)⟩

/-- Settles O40: each of the five is a `writeResultFlag` of the result and the flag of the old operands. -/
theorem flagIsLastEffect : Obligations.FlagIsLastEffect := by
  refine fun x y s => ⟨⟨_, rfl, ?add⟩, ⟨_, rfl, ?sub⟩, ⟨_, rfl, ?shr⟩, ⟨_, rfl, ?subn⟩, ⟨_, rfl, ?shl⟩⟩
  case add =>
    rw [← flagByte_carryOut]
    exact readV_writeResultFlag x _ _ s
  case sub | subn =>
    rw [← flagByte_noBorrow]
    exact readV_writeResultFlag x _ _ s
  case shr =>
    rw [← toNat_flagByte_shiftedOutRight, ← toNat_ushiftRight_one]
    exact (readV_writeResultFlag x _ _ s).imp (congrArg _) fun h hx => congrArg _ (h hx)
  case shl =>
    rw [← toNat_flagByte_shiftedOutLeft, ← toNat_shiftLeft_one]
    exact (readV_writeResultFlag x _ _ s).imp (congrArg _) fun h hx => congrArg _ (h hx)

/-! ### The random byte (42_alu.md R173) -/

theorem takeRandom_of_offer {s : State} {r : Byte} {rest : List Byte} (h : s.randQueue = r :: rest) :
    takeRandom s = (r, { s with randQueue := rest }) := by
  simp only [takeRandom, h]

theorem takeRandom_of_no_offer {s : State} (h : s.randQueue = []) :
    takeRandom s = (Config.rand s.draws, { s with draws := s.draws + 1 }) := by
  simp only [takeRandom, h]

/-- Settles O41: the byte is the one `takeRandom` answers, and r where the cycle is `Cycle(r)`. -/
theorem randomByteAndLiteral : Obligations.RandomByteAndLiteral := by
  refine ⟨selectsRow_opcodeRow (.rnd 0 0), fun x nn r rest s h => ?_, fun x nn s h => ?_, fun x nn r s hd =>
    hostCycle_of_rnd hd r⟩
  · rw [exec, execRnd, takeRandom_of_offer h]
    rfl
  · rw [exec, execRnd, takeRandom_of_no_offer h]
    rfl

end Sys2Proof.Machine

/-! Proofs for the family of 43_index_memory.md: how I is computed, and FX33, FX55 and FX65, each inside the range its check lets
through and past it. -/

namespace Sys2Proof.Machine

/-! ### Writes to I (43_index_memory.md R190-R192) -/

/-- Settles O42: NNN is widened to a word. -/
theorem loadIndexSetsIndex : Obligations.LoadIndexSetsIndex :=
  ⟨selectsRow_opcodeRow (.ldI 0), fun _ _ => ⟨_, rfl, BitVec.toNat_setWidth_of_le (by decide)⟩⟩

theorem idx_add_eq_ofNat_mod (i : Word) (b : Byte) :
    i + b.setWidth 16 = BitVec.ofNat 16 ((i.toNat + b.toNat) % 65536) := by
  apply BitVec.eq_of_toNat_eq
  rw [BitVec.toNat_add, BitVec.toNat_setWidth_of_le (by decide), BitVec.toNat_ofNat, Nat.mod_mod]

theorem flagByte_indexOverflow (i : Word) (b : Byte) :
    flagByte (indexOverflow i b) = if i.toNat + b.toNat > 0xFFF then 1#8 else 0#8 := by
  simp [flagByte, indexOverflow]

/-- Settles O43: the wrapped sum in I, then the flag of the exact sum in VF. -/
theorem addIndexSetsOverflowFlag : Obligations.AddIndexSetsOverflowFlag := by
  refine ⟨selectsRow_opcodeRow (.addIVx 0), fun x s => ?_⟩
  rw [← idx_add_eq_ofNat_mod, ← flagByte_indexOverflow]
  rfl

/-- Five times a byte fits in a word (43_index_memory.md R192, D15). -/
theorem toNat_glyphAddress (b : Byte) : (b.setWidth 16 * 5#16 : Word).toNat = b.toNat * 5 := by
  rw [BitVec.toNat_mul, BitVec.toNat_setWidth_of_le (by decide), BitVec.toNat_ofNat]
  omega

/-- Settles O44: the product is read as an integer, and the largest is 0xFF * 5. -/
theorem glyphAddressIsFiveTimes : Obligations.GlyphAddressIsFiveTimes := by
  refine ⟨selectsRow_opcodeRow (.ldFVx 0), fun x s => ?_⟩
  have haddr := toNat_glyphAddress (readV s x)
  have hmax : (readV s x).toNat * 5 ≤ 0x4FB := by omega
  exact ⟨_, rfl, haddr, haddr ▸ hmax⟩

/-! ### The range check (43_index_memory.md R197) -/

theorem rangeFault_of_fits {lo n : Nat} (h : lo + n ≤ 0xFFF) : rangeFault lo (n + 1) = none :=
  rangeFault_eq_none.2 (.inr (Nat.succ_le_succ h))

/-- The lowest invalid address of an access that passes 0xFFF is I itself or 0x1000. -/
theorem rangeFault_of_past {lo n : Nat} (h : 0xFFF < lo + n) : rangeFault lo (n + 1) = some (max lo 0x1000) :=
  rangeFault_eq_some.2 ⟨n.succ_ne_zero, Nat.succ_lt_succ h, rfl⟩

section
variable {s : State} {x : Reg}

/-- The fault record of an instruction of family F holds its word FXNN. -/
theorem raiseIn_familyF {i : Instr} (nn : Byte) (f : Fault) (h : encode i = patternXNN 0xF x nn) :
    raiseIn f i s = { s with fault := some ⟨f, s.pc, some (BitVec.ofNat 16 (0xF000 + nn.toNat + 256 * x.val))⟩ } := by
  have hword : encode i = BitVec.ofNat 16 (0xF000 + nn.toNat + 256 * x.val) := by
    rw [h, patternXNN]
    congr 1
    omega
  rw [raiseIn, hword, raise]

theorem exec_ldBVx_of_fits (h : s.idx.toNat + 2 ≤ 0xFFF) :
    exec (.ldBVx x) s = .next (advance { s with mem := s.mem.writeList s.idx.toNat (bcdDigits (readV s x)) }) := by
  simp only [exec, execLdBVx, rangeFault_of_fits h]

theorem exec_ldMemVx_of_fits (h : s.idx.toNat + x.val ≤ 0xFFF) :
    exec (.ldMemVx x) s =
      .next (advance (bumpIdx x { s with mem := s.mem.writeList s.idx.toNat (registersTo s x) })) := by
  simp only [exec, execLdMemVx, rangeFault_of_fits h]

theorem exec_ldVxMem_of_fits (h : s.idx.toNat + x.val ≤ 0xFFF) :
    exec (.ldVxMem x) s = .next (advance (bumpIdx x (loadRegistersTo x s))) := by
  simp only [exec, execLdVxMem, rangeFault_of_fits h]

theorem exec_ldBVx_of_past (h : 0xFFF < s.idx.toNat + 2) :
    exec (.ldBVx x) s = .next (raiseIn (.memoryOutOfRange (max s.idx.toNat 0x1000)) (.ldBVx x) s) := by
  simp only [exec, execLdBVx, rangeFault_of_past h]

theorem exec_ldMemVx_of_past (h : 0xFFF < s.idx.toNat + x.val) :
    exec (.ldMemVx x) s = .next (raiseIn (.memoryOutOfRange (max s.idx.toNat 0x1000)) (.ldMemVx x) s) := by
  simp only [exec, execLdMemVx, rangeFault_of_past h]

theorem exec_ldVxMem_of_past (h : 0xFFF < s.idx.toNat + x.val) :
    exec (.ldVxMem x) s = .next (raiseIn (.memoryOutOfRange (max s.idx.toNat 0x1000)) (.ldVxMem x) s) := by
  simp only [exec, execLdVxMem, rangeFault_of_past h]

/-! ### What a transfer leaves in memory, I and the registers (43_index_memory.md R193-R195) -/

/-- Within the range the check lets through, I advances without wrapping. -/
theorem toNat_bumpIdx_idx (h : s.idx.toNat + x.val ≤ 0xFFF) : (bumpIdx x s).idx.toNat = s.idx.toNat + x.val + 1 := by
  rw [bumpIdx_idx, BitVec.toNat_add, BitVec.toNat_ofNat]
  omega

theorem read_writeList_registersTo (hs : s.mem.wf = true) (h : s.idx.toNat + x.val ≤ 0xFFF) {k : Reg} (hk : k.val ≤ x.val) :
    (s.mem.writeList s.idx.toNat (registersTo s x)).read (s.idx.toNat + k.val) = readV s k := by
  have hlen := length_registersTo s x
  rw [Memory.read_writeList_at _ hs (by rw [hlen, Config.memSize]; omega) (by omega), getElem_registersTo]

theorem readV_loadRegistersTo (k : Reg) :
    readV (loadRegistersTo x s) k = if k.val ≤ x.val then s.mem.read (s.idx.toNat + k.val) else readV s k := by
  simp [readV]

end

/-! ### FX33, FX55, FX65 (43_index_memory.md R193-R197) -/

/-- Settles O45: each digit is read back from the run of three, and is less than 10. -/
theorem bcdStoreWritesDigits : Obligations.BcdStoreWritesDigits := by
  refine ⟨selectsRow_opcodeRow (.ldBVx 0), fun x s hs hfit => ⟨_, exec_ldBVx_of_fits hfit, ?_⟩, fun x s hpast =>
    (exec_ldBVx_of_past hpast).trans (congrArg _ (raiseIn_familyF 0x33#8 _ rfl))⟩
  have hb := (readV s x).isLt
  have hdigit (k : Nat) (hk : k < 3) :
      (s.mem.writeList s.idx.toNat (bcdDigits (readV s x))).read (s.idx.toNat + k) = (bcdDigits (readV s x))[k] :=
    Memory.read_writeList_at _ hs (Nat.succ_le_succ hfit) hk
  refine ⟨?hundreds, ?tens, ?units, fun a ha => ?others⟩
  case hundreds => exact (congrArg _ (hdigit 0 (by decide))).trans (Nat.mod_eq_of_lt (by omega))
  case tens => exact (congrArg _ (hdigit 1 (by decide))).trans (Nat.mod_eq_of_lt (by omega))
  case units => exact (congrArg _ (hdigit 2 (by decide))).trans (Nat.mod_eq_of_lt (by omega))
  case others => exact Memory.read_writeList_other _ _ (by rw [length_bcdDigits]; omega)

/-- Settles O46: the registers are read back from their run, and the bytes outside it are those of before. -/
theorem registerDumpStoresRegisters : Obligations.RegisterDumpStoresRegisters := by
  refine ⟨selectsRow_opcodeRow (.ldMemVx 0), fun x s hs hfit => ?_, fun x s hpast =>
    (exec_ldMemVx_of_past hpast).trans (congrArg _ (raiseIn_familyF 0x55#8 _ rfl))⟩
  refine ⟨_, _, exec_ldMemVx_of_fits hfit, toNat_bumpIdx_idx hfit, fun k hk => read_writeList_registersTo hs hfit hk,
    fun a ha => Memory.read_writeList_other _ _ ?_⟩
  rw [length_registersTo]
  omega

/-- Settles O47: `readV_loadRegistersTo` says what every register holds after the transfer. -/
theorem registerLoadReadsRegisters : Obligations.RegisterLoadReadsRegisters := by
  refine ⟨selectsRow_opcodeRow (.ldVxMem 0), fun x s hfit => ?_, fun x s hpast =>
    (exec_ldVxMem_of_past hpast).trans (congrArg _ (raiseIn_familyF 0x65#8 _ rfl))⟩
  exact ⟨_, _, exec_ldVxMem_of_fits hfit, toNat_bumpIdx_idx hfit, readV_loadRegistersTo⟩

/-- Settles O48: FX65 reads the run that FX55 wrote, from the same I. -/
theorem dumpThenLoadRoundTrips : Obligations.DumpThenLoadRoundTrips := by
  intro x s t u hs hfit hdump hmem hidx
  rw [exec_ldMemVx_of_fits hfit] at hdump
  cases hdump
  have hfitU : u.idx.toNat + x.val ≤ 0xFFF := hidx ▸ hfit
  refine ⟨_, exec_ldVxMem_of_fits hfitU, fun k hk => ?_, toNat_bumpIdx_idx hfit, hidx ▸ toNat_bumpIdx_idx hfitU⟩
  calc readV (loadRegistersTo x u) k
    _ = u.mem.read (u.idx.toNat + k.val) := by rw [readV_loadRegistersTo, if_pos hk]
    _ = (s.mem.writeList s.idx.toNat (registersTo s x)).read (s.idx.toNat + k.val) := by rw [hmem, hidx]; rfl
    _ = readV s k := read_writeList_registersTo hs hfit hk

end Sys2Proof.Machine

/-! Proofs for the family of 44_display.md: what a draw does to the pixels and to VF, the two checks before it, and CLS. -/

namespace Sys2Proof.Machine

/-- Settles O50: the new framebuffer is the clear one. -/
theorem clearScreenZeroesPixels : Obligations.ClearScreenZeroesPixels :=
  ⟨selectsRow_opcodeRow .cls, fun _ => ⟨Frame.clear, rfl, fun px py _ _ => Frame.pixel_clear px py⟩⟩

/-! ### Drawing a set of pixels (44_display.md R211, R214) -/

theorem onScreen_iff (px py : Nat) : onScreen (px, py) = true ↔ px < 64 ∧ py < 32 := by simp [onScreen]

section
variable {s u : State} {p : List (Nat × Nat)} {px py : Nat}

/-- A pixel of the framebuffer is complemented if it is one of the drawn pixels, else kept (44_display.md R214). -/
theorem pixel_drawOn (hp : p.Nodup) (hx : px < 64) (hy : py < 32) :
    (drawOn p s).fb.pixel px py = (s.fb.pixel px py ^^ decide ((px, py) ∈ p)) := by
  rw [drawOn_fb, Frame.pixel_foldl_toggle _ (hp.filter _) fun _ hq => (List.mem_filter.1 hq).2]
  simp [(onScreen_iff px py).2 ⟨hx, hy⟩]

theorem pixel_drawOn_of_mem (hp : p.Nodup) (hx : px < 64) (hy : py < 32) (h : (px, py) ∈ p) :
    (drawOn p s).fb.pixel px py = !s.fb.pixel px py := by
  rw [pixel_drawOn hp hx hy, decide_eq_true h, Bool.xor_true]

theorem pixel_drawOn_of_not_mem (hp : p.Nodup) (hx : px < 64) (hy : py < 32) (h : (px, py) ∉ p) :
    (drawOn p s).fb.pixel px py = s.fb.pixel px py := by
  rw [pixel_drawOn hp hx hy, decide_eq_false h, Bool.xor_false]

/-- Off-screen pixels are left out, so a collision is a drawn pixel of the framebuffer that is on. -/
theorem collides_filter_onScreen (f : Frame) :
    collides f (p.filter onScreen) = true ↔ ∃ px py, px < 64 ∧ py < 32 ∧ (px, py) ∈ p ∧ f.pixel px py = true := by
  simp only [collides, List.any_eq_true, List.mem_filter, Prod.exists, onScreen_iff]
  exact exists_congr fun _ => exists_congr fun _ => by tauto

theorem flagByte_eq_one (c : Bool) : flagByte c = 1#8 ↔ c = true := by cases c <;> decide

theorem flagByte_eq_zero_or_one (c : Bool) : flagByte c = 0#8 ∨ flagByte c = 1#8 := by cases c <;> decide

theorem readV_drawOn_flag : readV (drawOn p s) 15 = flagByte (collides s.fb (p.filter onScreen)) := readV_writeV_same ..

/-- VF is 1 iff at least one pixel went from 1 to 0 (44_display.md R211). -/
theorem readV_drawOn_flag_eq_one :
    readV (drawOn p s) 15 = 1#8 ↔ ∃ px py, px < 64 ∧ py < 32 ∧ (px, py) ∈ p ∧ s.fb.pixel px py = true := by
  rw [readV_drawOn_flag, flagByte_eq_one, collides_filter_onScreen]

theorem readV_drawOn_flag_eq_zero_or_one : readV (drawOn p s) 15 = 0#8 ∨ readV (drawOn p s) 15 = 1#8 :=
  readV_drawOn_flag ▸ flagByte_eq_zero_or_one _

/-- No pixel of a clear framebuffer can collide (44_display.md R214). -/
theorem readV_drawOn_flag_of_clear (hclear : ∀ px py, px < 64 → py < 32 → s.fb.pixel px py = false) :
    readV (drawOn p s) 15 = 0#8 := by
  refine readV_drawOn_flag_eq_zero_or_one.resolve_right fun hone => ?_
  obtain ⟨px, py, hx, hy, -, hon⟩ := readV_drawOn_flag_eq_one.1 hone
  exact Bool.false_ne_true ((hclear px py hx hy).symm.trans hon)

/-- A second draw of the same pixels complements back what the first complemented (44_display.md R214). -/
theorem drawOn_fb_of_second (hp : p.Nodup) (hu : u.fb = (drawOn p s).fb) : (drawOn p u).fb = s.fb :=
  Frame.ext fun px py hx hy => by
    rw [pixel_drawOn hp hx hy, hu, pixel_drawOn hp hx hy, Bool.xor_assoc, Bool.xor_self, Bool.xor_false]

/-- A pixel on in the second draw was off before the first (44_display.md R211; assumption log 13). -/
theorem readV_drawOn_flag_of_second (hp : p.Nodup) (hu : u.fb = (drawOn p s).fb) :
    readV (drawOn p u) 15 = 1#8 ↔ ∃ px py, px < 64 ∧ py < 32 ∧ (px, py) ∈ p ∧ s.fb.pixel px py = false := by
  rw [readV_drawOn_flag_eq_one]
  refine exists_congr fun px => exists_congr fun py => and_congr_right fun hx => and_congr_right fun hy =>
    and_congr_right fun hmem => ?_
  rw [hu, pixel_drawOn_of_mem hp hx hy hmem, Bool.not_eq_true']

end

/-! ### The three outcomes of DXYN (44_display.md R211, R212; 60_exceptions.md R259) -/

section
variable {s t : State} {x y : Reg} {n : Nibble}

theorem nodup_drawPixels (s : State) (x y : Reg) (n : Nibble) : (drawPixels x y n s).Nodup := nodup_spritePixels ..

theorem exec_drw_of_passed (hmem : rangeFault s.idx.toNat n.toNat = none)
    (hedge : drawFaults (drawPixels x y n s) s = false) :
    exec (.drw x y n) s = .next (advance (drawOn (drawPixels x y n s) s)) := by
  simp [exec, execDrw, hmem, hedge]

/-- The fault record of a DXYN holds its word. -/
theorem raiseIn_drw (f : Fault) :
    raiseIn f (.drw x y n) s = { s with fault := some ⟨f, s.pc,
      some (BitVec.ofNat 16 (0xD000 + 256 * x.val + 16 * y.val + n.toNat))⟩ } := by
  have hword : encode (.drw x y n) = BitVec.ofNat 16 (0xD000 + 256 * x.val + 16 * y.val + n.toNat) := by
    rw [encode, hexDigits]
    congr 1
    omega
  rw [raiseIn, hword, raise]

theorem exec_drw_of_memoryFault {a : Nat} (hmem : rangeFault s.idx.toNat n.toNat = some a) :
    exec (.drw x y n) s = .next (raiseIn (.memoryOutOfRange a) (.drw x y n) s) := by
  simp [exec, execDrw, hmem]

theorem exec_drw_of_edgeFault (hmem : rangeFault s.idx.toNat n.toNat = none)
    (hedge : drawFaults (drawPixels x y n s) s = true) :
    exec (.drw x y n) s = .next (raiseIn (.drawOutOfRange (readV s x) (readV s y)) (.drw x y n) s) := by
  simp [exec, execDrw, hmem, hedge]

/-- A DXYN that leaves no fault passed both checks and drew its sprite. -/
theorem exec_drw_completed (h : exec (.drw x y n) s = .next t) (hf : t.fault = none) :
    rangeFault s.idx.toNat n.toNat = none ∧ drawFaults (drawPixels x y n s) s = false ∧
      t = advance (drawOn (drawPixels x y n s) s) := by
  cases hmem : rangeFault s.idx.toNat n.toNat with
  | some a =>
    rw [exec_drw_of_memoryFault hmem] at h
    cases h
    cases hf
  | none =>
    cases hedge : drawFaults (drawPixels x y n s) s with
    | true =>
      rw [exec_drw_of_edgeFault hmem hedge] at h
      cases h
      cases hf
    | false =>
      rw [exec_drw_of_passed hmem hedge] at h
      cases h
      exact ⟨rfl, rfl, rfl⟩

/-- Under `Clip`, or with every lit pixel in the framebuffer, the edge check passes (44_display.md R212, D9). -/
theorem drawFaults_drawPixels_eq_false (h : s.drawEdge = .clip ∨ ∀ px py, lit s x y n px py → px < 64 ∧ py < 32) :
    drawFaults (drawPixels x y n s) s = false := by
  refine Bool.eq_false_iff.2 fun hfault => ?_
  obtain ⟨hpolicy, px, py, hmem, hoff⟩ := (drawFaults_iff _ _).1 hfault
  rcases h with hclip | hin
  · cases hclip.symm.trans hpolicy
  · have := hin px py ((mem_drawPixels ..).1 hmem)
    omega

/-- Where V[X], V[Y], I and memory are the same, the sprite is the same (44_display.md R211). -/
theorem drawPixels_congr {u : State} (hmem : u.mem = s.mem) (hidx : u.idx = s.idx) (hx : readV u x = readV s x)
    (hy : readV u y = readV s y) : drawPixels x y n u = drawPixels x y n s := by
  rw [drawPixels, hmem, hidx, hx, hy, drawPixels]

end

/-- Settles O51: both checks pass, and the drawn pixels are the lit ones. -/
theorem drawTogglesExactlyTheSprite : Obligations.DrawTogglesExactlyTheSprite := by
  refine ⟨selectsRow_opcodeRow (.drw 0 0 0), fun x y n s hvalid hin => ?_⟩
  have hp := nodup_drawPixels s x y n
  have hexec := exec_drw_of_passed (rangeFault_eq_none.2 hvalid) (drawFaults_drawPixels_eq_false hin)
  simp only [← mem_drawPixels]
  exact ⟨_, _, hexec, collides_filter_onScreen s.fb, fun px py hx hy => pixel_drawOn_of_mem hp hx hy,
    fun px py hx hy => pixel_drawOn_of_not_mem hp hx hy⟩

/-- Settles O52: the memory check fails first; with it passed, a lit pixel outside the framebuffer fails the edge check. -/
theorem drawFaultsChangeNothingElse : Obligations.DrawFaultsChangeNothingElse := by
  refine ⟨fun x y n s hpos hpast => ?memory, fun x y n s hfit hpolicy ⟨px, py, hlit, hoff⟩ => ?edge⟩
  case memory =>
    have hmem := rangeFault_eq_some.2 ⟨hpos.ne', hpast, rfl⟩
    rw [exec_drw_of_memoryFault hmem, raiseIn_drw]
  case edge =>
    have hedge := (drawFaults_iff s _).2 ⟨hpolicy, px, py, (mem_drawPixels ..).2 hlit, hoff⟩
    rw [exec_drw_of_edgeFault (rangeFault_eq_none.2 (.inr hfit)) hedge, raiseIn_drw]

/-- Settles O53: the second draw passes the checks the first passed and draws the same pixels. -/
theorem drawTwiceRestoresFrame : Obligations.DrawTwiceRestoresFrame := by
  refine ⟨fun x y n s t u _ h ht hu hmem hidx hfb hpolicy hvx hvy => ?twice, fun x y n s t _ hclear h ht => ?clear⟩
  case twice =>
    obtain ⟨hrange, hedge, rfl⟩ := exec_drw_completed h ht
    have hp := nodup_drawPixels s x y n
    have hsame : drawPixels x y n u = drawPixels x y n s := drawPixels_congr hmem hidx hvx hvy
    have hexec : exec (.drw x y n) u = .next (advance (drawOn (drawPixels x y n s) u)) := by
      rw [← hsame]
      refine exec_drw_of_passed (hidx ▸ hrange) ?_
      rw [hsame, drawFaults, hpolicy]
      exact hedge
    have hflag := readV_drawOn_flag_of_second hp hfb
    simp only [← mem_drawPixels]
    refine ⟨_, hexec, hu, drawOn_fb_of_second hp hfb, readV_drawOn_flag_eq_zero_or_one, hflag, fun hoff => hflag.trans ?_⟩
    exact exists_congr fun px => exists_congr fun py =>
      ⟨fun ⟨hx, hy, hm, _⟩ => ⟨hx, hy, hm⟩, fun ⟨hx, hy, hm⟩ => ⟨hx, hy, hm, hoff px py hx hy hm⟩⟩
  case clear =>
    obtain ⟨-, -, rfl⟩ := exec_drw_completed h ht
    exact readV_drawOn_flag_of_clear hclear

end Sys2Proof.Machine

/-! Proofs for the family of 45_timers_keypad.md: the timer instructions and the tick after them, FX0A with and without a pressed key,
and the key skips with and without a key V[X]. -/

namespace Sys2Proof.Machine

/-- A cycle of an instruction other than FX0A that leaves the fault record alone ends with the tick (40_cycle_engine.md R125). -/
theorem step_of_exec_ne_ldVxK {s t : State} {i : Instr} (hd : Decodes s i) (h : exec i s = .next t) (hf : t.fault = s.fault)
    (hi : ∀ x, i ≠ .ldVxK x) : step s = .next (tick t) :=
  step_of_completed hd h (hf.trans ((decodes_iff s i).1 hd).1) (stalls_eq_false_iff.2 (.inl hi))

/-- Settles O54: each cycle is the instruction's own write, then the tick, which keeps the registers. -/
theorem timerInstructionsThenTick : Obligations.TimerInstructionsThenTick := by
  refine ⟨⟨selectsRow_opcodeRow (.ldVxDT 0), selectsRow_opcodeRow (.ldDTVx 0), selectsRow_opcodeRow (.ldSTVx 0)⟩,
    fun x s => ⟨rfl, rfl, rfl⟩, fun x s hd => ?readDT, fun x s hd => ?writeDT, fun x s hd => ?writeST⟩
  case readDT =>
    exact ⟨_, step_of_exec_ne_ldVxK hd rfl rfl nofun, readV_writeV_same s x s.dt, tickTimer_toNat s.dt, tickTimer_toNat s.st⟩
  case writeDT =>
    exact ⟨_, step_of_exec_ne_ldVxK hd rfl rfl nofun, tickTimer_toNat (readV s x), tickTimer_toNat s.st⟩
  case writeST =>
    exact ⟨_, step_of_exec_ne_ldVxK hd rfl rfl nofun, tickTimer_toNat (readV s x), tickTimer_toNat s.dt⟩

/-! ### FX0A (45_timers_keypad.md R233) -/

theorem exec_ldVxK_of_lowest_pressed (x : Reg) {s : State} {k : Fin 16} (hk : s.keys[k.val] = true)
    (hlow : ∀ j : Fin 16, j < k → s.keys[j.val] = false) :
    exec (.ldVxK x) s = .next (advance (writeV x (BitVec.ofNat 8 k.val) s)) := by
  simp only [exec, execLdVxK, lowestKey_eq_some.2 ⟨hk, hlow⟩]

/-- Settles O56: with a key pressed the instruction is no stall, so its cycle completes; with none pressed it stalls. -/
theorem awaitKeyTakesLowestPressedKey : Obligations.AwaitKeyTakesLowestPressedKey := by
  refine ⟨selectsRow_opcodeRow (.ldVxK 0), fun x s k hk hlow => exec_ldVxK_of_lowest_pressed x hk hlow,
    fun x s hnone => exec_of_stall (stalls_ldVxK x hnone), fun x s k hd hk hlow => ?_,
    fun x s hd hnone => step_of_stall hd (stalls_ldVxK x hnone)⟩
  have hrunning : s.fault = none := ((decodes_iff s _).1 hd).1
  have hstall : stalls (.ldVxK x) s = false := stalls_eq_false_iff.2 (.inr ⟨k, hk⟩)
  exact step_of_completed hd (exec_ldVxK_of_lowest_pressed x hk hlow) hrunning hstall

/-! ### EX9E and EXA1 (45_timers_keypad.md R230, R231, R236) -/

section
variable {s : State} {x : Reg}

/-- The fault record of an instruction with register field X and a literal byte holds its word, of any family `d`. -/
theorem raiseIn_patternXNN {i : Instr} (d : Nat) (nn : Byte) (f : Fault) (h : encode i = patternXNN d x nn) :
    raiseIn f i s = { s with fault := some ⟨f, s.pc, some (BitVec.ofNat 16 (d * 4096 + nn.toNat + 256 * x.val))⟩ } := by
  have hword : d * 4096 + x.val * 256 + nn.toNat = d * 4096 + nn.toNat + 256 * x.val := by omega
  rw [raiseIn, h, patternXNN, hword, raise]

theorem exec_skp_of_key {k : Fin 16} (h : (readV s x).toNat = k.val) : exec (.skp x) s = .next (skipIf s.keys[k.val] s) := by
  simp only [exec, execSkp, keyIndex_eq_some.2 h]

theorem exec_sknp_of_key {k : Fin 16} (h : (readV s x).toNat = k.val) :
    exec (.sknp x) s = .next (skipIf (!s.keys[k.val]) s) := by
  simp only [exec, execSknp, keyIndex_eq_some.2 h]

theorem exec_skp_of_no_key (h : 15 < (readV s x).toNat) :
    exec (.skp x) s = .next (raiseIn (.keyIndexOutOfRange (readV s x)) (.skp x) s) := by
  simp only [exec, execSkp, keyIndex_eq_none.2 h]

theorem exec_sknp_of_no_key (h : 15 < (readV s x).toNat) :
    exec (.sknp x) s = .next (raiseIn (.keyIndexOutOfRange (readV s x)) (.sknp x) s) := by
  simp only [exec, execSknp, keyIndex_eq_none.2 h]

end

/-- A skip on the negated condition is the skip with its two targets exchanged. -/
theorem skipIf_not (c : Bool) (s : State) :
    skipIf (!c) s = { s with pc := if c = true then s.pc + 2#16 else s.pc + 4#16 } := by
  cases c <;> rfl

/-- Settles O57: a key V[X] below 16 decides the skip; above, the fault record is the instruction's word at its pc. -/
theorem keySkipsTestKey : Obligations.KeySkipsTestKey := by
  refine ⟨selectsRow_opcodeRow (.skp 0), selectsRow_opcodeRow (.sknp 0), fun x s h => ⟨?skp, ?sknp⟩,
    fun x s h => ⟨?skpFault, ?sknpFault⟩⟩
  case skp => exact exec_skp_of_key (k := ⟨_, h⟩) rfl
  case sknp => exact (exec_sknp_of_key (k := ⟨_, h⟩) rfl).trans (congrArg _ (skipIf_not _ s))
  case skpFault => exact (exec_skp_of_no_key h).trans (congrArg _ (raiseIn_patternXNN 0xE 0x9E#8 _ rfl))
  case sknpFault => exact (exec_sknp_of_no_key h).trans (congrArg _ (raiseIn_patternXNN 0xE 0xA1#8 _ rfl))

end Sys2Proof.Machine

/-! Proofs for the family of 60_exceptions.md: what brings an instruction, and so a cycle, to each of the seven faults. -/

namespace Sys2Proof.Machine

/-- The cause, in the state an instruction begins in, of each fault the instruction can raise (60_exceptions.md R252, R254-R258).
The draw's edge fault is raised only where its memory check passed (R259). -/
inductive FaultCause (s : State) : Instr → Fault → Prop where
  | sys (nnn : Addr12) : FaultCause s (.sys nnn) .decodeError
  | call (nnn : Addr12) (h : s.sp.val = 16) : FaultCause s (.call nnn) .stackOverflow
  | ret (h : s.sp.val = 0) : FaultCause s .ret .stackUnderflow
  | drwMemory (x y : Reg) (n : Nibble) {a : Nat} (h : rangeFault s.idx.toNat n.toNat = some a) :
    FaultCause s (.drw x y n) (.memoryOutOfRange a)
  | ldBVx (x : Reg) {a : Nat} (h : rangeFault s.idx.toNat 3 = some a) : FaultCause s (.ldBVx x) (.memoryOutOfRange a)
  | ldMemVx (x : Reg) {a : Nat} (h : rangeFault s.idx.toNat (x.val + 1) = some a) :
    FaultCause s (.ldMemVx x) (.memoryOutOfRange a)
  | ldVxMem (x : Reg) {a : Nat} (h : rangeFault s.idx.toNat (x.val + 1) = some a) :
    FaultCause s (.ldVxMem x) (.memoryOutOfRange a)
  | drwEdge (x y : Reg) (n : Nibble) (hmem : rangeFault s.idx.toNat n.toNat = none)
      (hedge : drawFaults (drawPixels x y n s) s = true) :
    FaultCause s (.drw x y n) (.drawOutOfRange (readV s x) (readV s y))
  | skp (x : Reg) (h : 15 < (readV s x).toNat) : FaultCause s (.skp x) (.keyIndexOutOfRange (readV s x))
  | sknp (x : Reg) (h : 15 < (readV s x).toNat) : FaultCause s (.sknp x) (.keyIndexOutOfRange (readV s x))

/-- An instruction leaves the fault record alone, or enters a fault that has its cause. -/
theorem exec_faultCause {i : Instr} {s t : State} (h : exec i s = .next t) :
    t.fault = s.fault ∨ ∃ f, t = raiseIn f i s ∧ FaultCause s i f := by
  cases i with
  | sys nnn =>
    cases h
    exact .inr ⟨_, rfl, .sys nnn⟩
  | ret =>
    rcases Nat.eq_zero_or_pos s.sp.val with hs | hs
    · rw [exec_ret_of_empty hs] at h
      cases h
      exact .inr ⟨_, rfl, .ret hs⟩
    · rw [exec_ret_of_pos hs] at h
      cases h
      exact .inl rfl
  | call nnn =>
    rcases Nat.lt_or_eq_of_le (Nat.le_of_lt_succ s.sp.isLt) with hs | hs
    · rw [exec_call_of_room nnn hs] at h
      cases h
      exact .inl rfl
    · rw [exec_call_of_full nnn hs] at h
      cases h
      exact .inr ⟨_, rfl, .call nnn hs⟩
  | skp | sknp =>
    simp only [exec, execSkp, execSknp] at h
    split at h <;> cases h
    · exact .inl rfl
    · next hk => exact .inr ⟨_, rfl, by constructor; exact keyIndex_eq_none.1 hk⟩
  | ldVxK x =>
    simp only [exec, execLdVxK] at h
    split at h <;> cases h <;> exact .inl rfl
  | rnd x nn =>
    cases h
    exact .inl (takeRandom_fault s)
  | drw x y n =>
    cases hmem : rangeFault s.idx.toNat n.toNat with
    | some a =>
      rw [exec_drw_of_memoryFault hmem] at h
      cases h
      exact .inr ⟨_, rfl, .drwMemory x y n hmem⟩
    | none =>
      cases hedge : drawFaults (drawPixels x y n s) s with
      | true =>
        rw [exec_drw_of_edgeFault hmem hedge] at h
        cases h
        exact .inr ⟨_, rfl, .drwEdge x y n hmem hedge⟩
      | false =>
        rw [exec_drw_of_passed hmem hedge] at h
        cases h
        exact .inl rfl
  | ldBVx | ldMemVx | ldVxMem =>
    simp only [exec, execLdBVx, execLdMemVx, execLdVxMem] at h
    split at h <;> cases h
    · next hmem => exact .inr ⟨_, rfl, by constructor; exact hmem⟩
    · exact .inl rfl
  | _ =>
    cases h
    exact .inl rfl

theorem not_decodes_of_decode_error {s : State} {op : Word} {e : Reject} (hop : fetch s = some op) (he : decode op = .error e)
    (i : Instr) : ¬ Decodes s i := by
  intro hd
  obtain ⟨_, op', hop', hi⟩ := (decodes_iff s i).1 hd
  cases hop.symm.trans hop'
  cases he.symm.trans hi

/-- A cycle that leaves a new fault failed to fetch, failed to decode, or executed an instruction that had a cause to raise it. -/
theorem step_faultCause {s t : State} {r : FaultRecord} (h0 : s.fault = none) (h : step s = .next t) (hr : t.fault = some r) :
    (r.fault = .fetchOutOfRange ∧ 0xFFE < s.pc.toNat) ∨
    (r.fault = .decodeError ∧ s.pc.toNat ≤ 0xFFE ∧ ∀ i, ¬ Decodes s i) ∨
    ∃ i, Decodes s i ∧ FaultCause s i r.fault := by
  rcases step_cases h with ⟨hf, _⟩ | ⟨_, hop, rfl⟩ | ⟨op, _, _, hop, he, rfl⟩ | ⟨op, i, u, _, hop, hi, hu, rfl⟩
  · exact absurd h0 hf
  · cases hr
    exact .inl ⟨rfl, fetch_eq_none.1 hop⟩
  · cases hr
    exact .inr (.inl ⟨rfl, (fetch_eq_some.1 hop).1, not_decodes_of_decode_error hop he⟩)
  · rw [endCycle_fault] at hr
    rcases exec_faultCause hu with hsame | ⟨f, rfl, hcause⟩
    · cases (hsame.trans h0).symm.trans hr
    · cases hr
      exact .inr (.inr ⟨i, (decodes_iff s i).2 ⟨h0, op, hop, hi⟩, hcause⟩)

/-- Settles O13: the fetch, the decoder, or the cause of the executed instruction, by the instruction that raised it. -/
theorem eachFaultHasItsCause : Obligations.EachFaultHasItsCause := by
  rintro s t ⟨f, pc, op⟩ h0 h hr
  rcases step_faultCause h0 h hr with ⟨rfl, hpc⟩ | ⟨rfl, hpc, hno⟩ | ⟨i, hd, hcause⟩
  · exact hpc
  · exact ⟨hpc, .inl hno⟩
  · cases hcause with
    | sys nnn =>
      have ⟨_, hpc, _⟩ := hd
      exact ⟨hpc, .inr ⟨nnn, hd⟩⟩
    | call nnn hs => exact ⟨⟨nnn, hd⟩, hs⟩
    | ret hs => exact ⟨hd, hs⟩
    | drwMemory x y n hmem =>
      obtain ⟨hne, hpast, ha⟩ := rangeFault_eq_some.1 hmem
      exact ⟨_, .inl ⟨x, y, n, hd, rfl, Nat.pos_of_ne_zero hne⟩, hpast, ha⟩
    | ldBVx x hmem => exact ⟨_, .inr (.inl ⟨x, hd, rfl⟩), (rangeFault_eq_some.1 hmem).2⟩
    | ldMemVx x hmem => exact ⟨_, .inr (.inr ⟨x, .inl hd, rfl⟩), (rangeFault_eq_some.1 hmem).2⟩
    | ldVxMem x hmem => exact ⟨_, .inr (.inr ⟨x, .inr hd, rfl⟩), (rangeFault_eq_some.1 hmem).2⟩
    | drwEdge x y n hmem hedge =>
      obtain ⟨hpolicy, px, py, hlit, hoff⟩ := (drawFaults_iff _ _).1 hedge
      exact ⟨x, y, n, hd, rfl, rfl, hpolicy, rangeFault_eq_none.1 hmem, px, py, (mem_drawPixels ..).1 hlit, hoff⟩
    | skp x hk => exact ⟨x, .inl hd, rfl, hk⟩
    | sknp x hk => exact ⟨x, .inr hd, rfl, hk⟩

end Sys2Proof.Machine

/-! Proofs for the family of 70_reset_and_hazards.md: a timer over a run of completed cycles, and what Load copies. -/

namespace Sys2Proof.Machine

/-! ### A timer over a run of cycles (70_reset_and_hazards.md R292) -/

/-- An instruction other than FX18 leaves ST unchanged: it carries the state's own ST through unread. -/
theorem exec_st {i : Instr} {s t : State} (hi : ∀ x, i ≠ .ldSTVx x) (h : exec i s = .next t) : t.st = s.st := by
  have own : Host.Outcome.next t = .next { t with st := s.st } := h.symm.trans (exec_withST hi h s.st)
  rw [Host.Outcome.next.inj own]

section
variable {s t : State} {i : Instr}

theorem completes_dt_toNat (hi : ∀ x, i ≠ .ldDTVx x) (h : Completes s i t) : t.dt.toNat = s.dt.toNat - 1 := by
  obtain ⟨u, hu, _, rfl⟩ := completes_cases h
  rw [← (exec_frame hu).dt hi]
  exact tickTimer_toNat u.dt

theorem completes_st_toNat (hi : ∀ x, i ≠ .ldSTVx x) (h : Completes s i t) : t.st.toNat = s.st.toNat - 1 := by
  obtain ⟨u, hu, _, rfl⟩ := completes_cases h
  rw [← exec_st hi hu]
  exact tickTimer_toNat u.st

/-- What each completed cycle of a run lowers by one, floored at 0, `k` of them lower by `k`. -/
theorem completesEach_countdown {p : Instr → Prop} {count : State → Nat} {k : Nat}
    (hcycle : ∀ {i s t}, p i → Completes s i t → count t = count s - 1) (h : CompletesEach p k s t) :
    count t = count s - k := by
  induction k generalizing s with
  | zero => rw [h, Nat.sub_zero]
  | succ k ih =>
    obtain ⟨i, u, hp, hc, hrun⟩ := h
    rw [ih hrun, hcycle hp hc, Nat.sub_sub, Nat.add_comm]

/-- Every cycle of a self-loop completes the jump, and the tick that ends it leaves the loop in place (40_cycle_engine.md R132). -/
theorem completesEach_of_selfLoop {p : Instr → Prop} {nnn : Addr12} {k : Nat} (hp : p (.jp nnn)) (hd : Decodes s (.jp nnn))
    (hpc : s.pc.toNat = nnn.toNat) (h : Host.Core.run core k s = .next t) : CompletesEach p k s t := by
  induction k generalizing s with
  | zero => exact (Host.Outcome.next.inj h).symm
  | succ k ih =>
    have hstep : core.step s = .next (tick s) := step_of_exec_ne_ldVxK hd (exec_jp_self hpc) rfl nofun
    have hrunning : s.fault = none := ((decodes_iff s _).1 hd).1
    simp only [Host.Core.run, hstep] at h
    exact ⟨_, tick s, hp, ⟨hd, hstep, hrunning, .inl nofun⟩, ih hd hpc h⟩

end

/-- Settles O55: the cycle of the write leaves n - 1, the run that follows counts down from there, and FX07 reads DT before the tick
of its own cycle; a self-loop is such a run for both timers. -/
theorem timerCountsDownWhileCyclesRun : Obligations.TimerCountsDownWhileCyclesRun := by
  obtain ⟨_, _, readsDT, writesDT, writesST⟩ := timerInstructionsThenTick
  refine ⟨fun x y s t u v k hd hst hrun => ?afterDT, fun x s t u k hd hst hrun => ?afterST,
    fun s t nnn k hd hpc hrun => ?selfLoop⟩
  case afterDT =>
    obtain ⟨_, hst', ht, _⟩ := writesDT x s hd
    cases hst.symm.trans hst'
    have hu : u.dt.toNat = (readV s x).toNat - (k + 1) := by
      rw [completesEach_countdown completes_dt_toNat hrun, ht, Nat.sub_sub, Nat.add_comm]
    refine ⟨hu, fun hread huv => ?_⟩
    obtain ⟨_, huv', hv, _⟩ := readsDT y u hread
    cases huv.symm.trans huv'
    rw [hv, hu]
  case afterST =>
    obtain ⟨_, hst', ht, _⟩ := writesST x s hd
    cases hst.symm.trans hst'
    rw [completesEach_countdown completes_st_toNat hrun, ht, Nat.sub_sub, Nat.add_comm]
  case selfLoop =>
    exact ⟨completesEach_countdown completes_dt_toNat (completesEach_of_selfLoop nofun hd hpc hrun),
      completesEach_countdown completes_st_toNat (completesEach_of_selfLoop nofun hd hpc hrun)⟩

/-! ### Load (70_reset_and_hazards.md R284-R286, D24) -/

theorem hostLoad_of_fits {rom : List Byte} (s : State) (h : rom.length ≤ 3584) :
    hostLoad rom s = (.ok, { s with mem := s.mem.writeList 0x200 rom }) :=
  if_neg (Nat.not_lt.2 h)

theorem hostLoad_of_too_long {rom : List Byte} (s : State) (h : 3584 < rom.length) : hostLoad rom s = (.capacityError, s) :=
  if_pos h

/-- Settles O60: the memory Load leaves is the run written from 0x200, which ends by 0xFFF and so reads back whole. -/
theorem loadCopiesRomOrChangesNothing : Obligations.LoadCopiesRomOrChangesNothing := by
  refine ⟨fun rom s hs hlen => ⟨_, hostLoad_of_fits s hlen, fun k hk => ?_, fun a ha => ?_⟩,
    fun rom s hlen => hostLoad_of_too_long s hlen⟩
  · have hend : 0x200 + rom.length ≤ Config.memSize := Nat.add_le_add_left hlen 0x200
    exact Memory.read_writeList_at rom hs hend hk
  · exact Memory.read_writeList_other s.mem rom ha

end Sys2Proof.Machine
